-- ==== Sys2Proof/Word.lean ====
section
/-! DEFINITION. The two value widths of the block (00_scope.md R13): every value is an unsigned bit vector. -/

namespace Sys2Proof

/-- A `u32`: a register, a table entry, a command word (00_scope.md R13). -/
abbrev Word := BitVec 32

/-- A `u8`: a stream byte or a table index (00_scope.md R13). -/
abbrev Byte := BitVec 8

end Sys2Proof
end

