-- ==== Sys2Proof/Syntax.lean ====
section
/-! DEFINITION. The command set as syntax: one constructor of `Instr` for each row of `spec/opcode_table.json`
(30_encoding.md R96), the closed set of variants (10_state.md R20) and the command error codes
(60_exceptions.md R180). -/

namespace Sys2Proof

/-- The two CRC-32 variants, a closed set (00_scope.md R2, 10_state.md R20, R21). -/
inductive Variant where
  /-- NORMAL: reflected, VAR code 0. -/
  | normal
  /-- MPEG2: non-reflected, VAR code 1. -/
  | mpeg2
deriving DecidableEq, Repr

/-- The bit conventions, spelled apart from the variants (00_scope.md R18). -/
inductive Convention where
  /-- LSB-first: the register shifts right and is tested at bit 0. -/
  | reflected
  /-- MSB-first: the register shifts left and is tested at bit 31. -/
  | nonreflected
deriving DecidableEq, Repr

/-- The commands with their operand fields (30_encoding.md R92, R93). `ch` is the CH field, `b` the byte B,
`n` the count N, `mask` the channel set MASK, `idx` the table index IDX. -/
inductive Instr where
  /-- NOP (42_control.md R170). -/
  | nop
  /-- INIT ch, v (40_table_builder.md R124). -/
  | init (ch : BitVec 4) (v : Variant)
  /-- START ch (41_accumulator.md R144). -/
  | start (ch : BitVec 4)
  /-- UPDB ch, b (41_accumulator.md R145). -/
  | updb (ch : BitVec 4) (b : Byte)
  /-- UPDW ch, n (41_accumulator.md R146). -/
  | updw (ch : BitVec 4) (n : BitVec 3)
  /-- UPDM mask, b (41_accumulator.md R147). -/
  | updm (mask : BitVec 16) (b : Byte)
  /-- FINAL ch (41_accumulator.md R150). -/
  | final (ch : BitVec 4)
  /-- TREAD ch, idx (40_table_builder.md R125). -/
  | tread (ch : BitVec 4) (idx : Byte)
  /-- CLRERR (42_control.md R171). -/
  | clrerr
deriving DecidableEq, Repr

/-- The command errors (60_exceptions.md R180). -/
inductive ErrCode where
  /-- E_OPCODE: a reserved opcode. -/
  | opcode
  /-- E_FIELD: a reserved bit of the format is 1, or UPDW with N above 4. -/
  | field
  /-- E_CHANNEL: a channel that does not exist. -/
  | channel
  /-- E_UNBOUND: a selected channel has BOUND = 0. -/
  | unbound
  /-- E_NOTSTARTED: a selected channel has ARMED = 0. -/
  | notStarted
deriving DecidableEq, Repr

/-- What `raise CmdError(code, ch)` carries (00_scope.md R15, 60_exceptions.md R183). -/
structure CmdError where
  code : ErrCode
  ch   : BitVec 4
deriving DecidableEq, Repr

end Sys2Proof
end

