-- ==== Sys2Proof/WellFormed.lean ====
section
/-! DEFINITION. The check an instruction must pass to be the reading of a command word. The types of the fields
already hold every other bound (30_encoding.md R92, R93). -/

namespace Sys2Proof

/-- UPDW is legal for N in 0..4 only (30_encoding.md R93); every other field admits all its values. -/
def Instr.wellFormed : Instr → Bool
  | .nop => true
  | .init _ _ => true
  | .start _ => true
  | .updb _ _ => true
  | .updw _ n => n.toNat ≤ 4
  | .updm _ _ => true
  | .final _ => true
  | .tread _ _ => true
  | .clrerr => true

end Sys2Proof
end

