-- ==== Sys2Proof/Decode.lean ====
section
/-! DEFINITION. Decoding, total on every word (30_encoding.md R97), and the encoder, both from the encoding tables
of 30_encoding.md R92, R95 and R96. -/

namespace Sys2Proof

/-- `v[hi:lo]` of a command word as `width` bits from bit `lo` up (00_scope.md R13). -/
def Decode.slice (w : Word) (lo width : Nat) : BitVec width := w.extractLsb' lo width

/-- `OP = w[31:28]` (30_encoding.md R91). -/
def Decode.op (w : Word) : BitVec 4 := Decode.slice w 28 4

/-- `CH = w[27:24]` (30_encoding.md R91). The errors E_OPCODE and E_FIELD record these bits whatever the format
(60_exceptions.md R184). -/
def Decode.ch (w : Word) : BitVec 4 := Decode.slice w 24 4

/-- The variant of a VAR bit: 0 is NORMAL and 1 is MPEG2 (30_encoding.md R95). -/
def Decode.variantOf (v : BitVec 1) : Variant := if v = 0 then .normal else .mpeg2

/-- The VAR bit of a variant (30_encoding.md R95). -/
def Decode.varBit : Variant → BitVec 1
  | .normal => 0
  | .mpeg2 => 1

/-- One row of the opcode map (30_encoding.md R96): the opcode, the match, the mask, and the command with the
fields of its format (R92). -/
structure OpRow where
  op      : BitVec 4
  pattern : Word
  mask    : Word
  read    : Word → Instr

/-- The opcode map (30_encoding.md R96), with each format's field positions (R92). -/
def Decode.opTable : List OpRow :=
  [ ⟨0x0, 0x00000000, 0xFFFFFFFF, fun _ => .nop⟩,
    ⟨0x1, 0x10000000, 0xF0FFFFFE, fun w => .init (Decode.ch w) (Decode.variantOf (Decode.slice w 0 1))⟩,
    ⟨0x2, 0x20000000, 0xF0FFFFFF, fun w => .start (Decode.ch w)⟩,
    ⟨0x3, 0x30000000, 0xF0FFFF00, fun w => .updb (Decode.ch w) (Decode.slice w 0 8)⟩,
    ⟨0x4, 0x40000000, 0xF0FFFFF8, fun w => .updw (Decode.ch w) (Decode.slice w 0 3)⟩,
    ⟨0x5, 0x50000000, 0xFF000000, fun w => .updm (Decode.slice w 8 16) (Decode.slice w 0 8)⟩,
    ⟨0x6, 0x60000000, 0xF0FFFFFF, fun w => .final (Decode.ch w)⟩,
    ⟨0x7, 0x70000000, 0xF0FFFF00, fun w => .tread (Decode.ch w) (Decode.slice w 0 8)⟩,
    ⟨0x8, 0x80000000, 0xFFFFFFFF, fun _ => .clrerr⟩ ]

/-- The row of an opcode; the opcodes 0x9 to 0xF have none (30_encoding.md R96, R98). -/
def Decode.rowOf (op : BitVec 4) : Option OpRow := Decode.opTable.find? fun row => row.op == op

/-- `decode(w)`, total: a command, or the command error the word raises (30_encoding.md R97, R98, R99). -/
def decode (w : Word) : Except CmdError Instr :=
  match Decode.rowOf (Decode.op w) with
  | none => .error ⟨.opcode, Decode.ch w⟩
  | some row =>
    if w &&& row.mask ≠ row.pattern then .error ⟨.field, Decode.ch w⟩
    else if row.op = 0x4 ∧ 4 < (Decode.slice w 0 3).toNat then .error ⟨.field, Decode.ch w⟩
    else .ok (row.read w)

/-- The opcode of an instruction (30_encoding.md R96). -/
def Instr.opcode : Instr → BitVec 4
  | .nop => 0x0
  | .init _ _ => 0x1
  | .start _ => 0x2
  | .updb _ _ => 0x3
  | .updw _ _ => 0x4
  | .updm _ _ => 0x5
  | .final _ => 0x6
  | .tread _ _ => 0x7
  | .clrerr => 0x8

/-- A field placed with its bit 0 at bit `lo` of a command word, zeros elsewhere (30_encoding.md R92, R94). -/
def Decode.place {width : Nat} (v : BitVec width) (lo : Nat) : Word := v.zeroExtend 32 <<< lo

/-- The command word of an instruction: the fields of its format, reserved bits 0 (30_encoding.md R92, R95, R96). -/
def encode : Instr → Word
  | .nop => Decode.place 0x0#4 28
  | .init ch v => Decode.place 0x1#4 28 ||| Decode.place ch 24 ||| Decode.place (Decode.varBit v) 0
  | .start ch => Decode.place 0x2#4 28 ||| Decode.place ch 24
  | .updb ch b => Decode.place 0x3#4 28 ||| Decode.place ch 24 ||| Decode.place b 0
  | .updw ch n => Decode.place 0x4#4 28 ||| Decode.place ch 24 ||| Decode.place n 0
  | .updm mask b => Decode.place 0x5#4 28 ||| Decode.place mask 8 ||| Decode.place b 0
  | .final ch => Decode.place 0x6#4 28 ||| Decode.place ch 24
  | .tread ch idx => Decode.place 0x7#4 28 ||| Decode.place ch 24 ||| Decode.place idx 0
  | .clrerr => Decode.place 0x8#4 28

/-- The command word a table word stands for: the low `nbits` bits of `w`, every bit above 0. A command is one
32-bit word (30_encoding.md R90), so the table's numbering is the word's own. -/
def Decode.tableWord (nbits w : Nat) : Word := BitVec.ofNat 32 (w % 2 ^ nbits)

/-- The instruction the decoder reads from a table word, if it reads one. -/
def decodeTableWord (nbits w : Nat) : Option Instr :=
  match decode (Decode.tableWord nbits w) with
  | .ok i => some i
  | .error _ => none

end Sys2Proof
end

