-- ==== Sys2Proof/Config.lean ====
section
/-! DEFINITION. The implementation parameters (00_scope.md R8 to R12) and the free values: the contents that the
spec leaves unspecified after a reset (10_state.md R43). -/

namespace Sys2Proof

/-- The least `NCH` (00_scope.md R8). -/
def Config.minChannels : Nat := 1

/-- The greatest `NCH` (00_scope.md R8): the CH field has 4 bits. -/
def Config.maxChannels : Nat := 16

/-- The default `NCH` (00_scope.md R8). -/
def Config.defaultChannels : Nat := 2

/-- A value of the synthesis parameter `NCH`: a number in its range, and no other (00_scope.md R8). -/
abbrev Config.ChannelCount := { n : Nat // Config.minChannels ≤ n ∧ n ≤ Config.maxChannels }

/-- The default value of the parameter (00_scope.md R8). -/
def Config.defaultCount : Config.ChannelCount := ⟨Config.defaultChannels, by decide⟩

/-- FREE VALUE. `CRC[c]` after a reset event (10_state.md R43): unspecified. The first argument is the number of the
draw (`State.freeDraws`), the second the channel. Log entry 3. -/
opaque Config.unspecifiedCrc : Nat → Nat → Word

/-- FREE VALUE. `TABLE[c][i]` after a reset event (10_state.md R43): unspecified. The first argument is the number
of the draw (`State.freeDraws`), the second the channel, the third the index. Log entry 3. -/
opaque Config.unspecifiedEntry : Nat → Nat → Byte → Word

end Sys2Proof
end

