-- ==== Sys2Proof/Machine/State.lean ====
section
/-! DEFINITION. The block's state as plain data (10_state.md), the host's events, the reasons a step can stop, and
the state right after reset (10_state.md R43, 70_reset_and_hazards.md R210). -/

namespace Sys2Proof.Machine

/-- A channel's table memory: 256 words, every index valid (10_state.md R24, 20_memory.md R69). -/
abbrev Table := Vector Word 256

/-- The five items of one channel (10_state.md R22). -/
structure Channel where
  /-- `VARIANT[c]` (10_state.md R25). -/
  variant : Variant
  /-- `BOUND[c]` (10_state.md R26). -/
  bound   : Bool
  /-- `ARMED[c]` (10_state.md R27). -/
  armed   : Bool
  /-- `CRC[c]` (10_state.md R23). -/
  crc     : Word
  /-- `TABLE[c]` (10_state.md R24). -/
  table   : Table
deriving DecidableEq, Repr

/-- The fields of STATUS (10_state.md R38). Its reserved bits read 0 and are not stored. -/
structure Status where
  /-- ERR, STATUS[0]. -/
  err    : Bool
  /-- EMULT, STATUS[1]. -/
  emult  : Bool
  /-- ECODE, STATUS[7:4]. -/
  ecode  : BitVec 4
  /-- ECH, STATUS[11:8]. -/
  ech    : BitVec 4
  /-- RVALID, STATUS[12]. -/
  rvalid : Bool
deriving DecidableEq, Repr

/-- A bus transaction on the register window (20_memory.md R62, R63, R66). `off` is the offset the block sees (R60),
`bits` the width of the transfer in bits, `strobes` the byte enables of a write. -/
inductive Transfer where
  | read (off : BitVec 5) (bits : Nat)
  | write (off : BitVec 5) (bits : Nat) (strobes : BitVec 4) (value : Word)
deriving DecidableEq, Repr

/-- What the outside world does to the block: a transaction (20_memory.md R70), or a pulse of the reset input, which
may abandon a transaction in progress (70_reset_and_hazards.md R211). -/
inductive HostEvent where
  | transfer (t : Transfer)
  | reset (abandoned : Option Transfer)
deriving DecidableEq, Repr

/-- The bus response of a transaction (20_memory.md R62, R63, R65). -/
inductive Response where
  /-- A read that returned a register's value. -/
  | data (v : Word)
  /-- A write that completed. -/
  | done
  /-- An error response. It carries no value (20_memory.md R65). -/
  | error
deriving DecidableEq, Repr

/-- The block, with the host's events still to come. `NCH` is the number of channels (00_scope.md R8). -/
structure State where
  /-- The channels 0..NCH-1 (10_state.md R22). -/
  chans     : List Channel
  /-- DATA (10_state.md R36). -/
  data      : Word
  /-- RESULT (10_state.md R37). -/
  result    : Word
  /-- STATUS (10_state.md R38). -/
  status    : Status
  /-- The model's own: the host events still to come, in the order the bus delivers them (20_memory.md R70). Log
  entry 4. -/
  inputs    : List HostEvent
  /-- The model's own: the bus response of the last transaction. Log entry 6. -/
  response  : Option Response
  /-- The model's own: how many reset events have drawn free values. Log entry 3. -/
  freeDraws : Nat
deriving DecidableEq, Repr

/-- Why the machine stops with a fault. -/
inductive Fault where
  /-- `raise BusError()` (20_memory.md R62 to R67). Raised by a bus transaction against a register's direction, at the
  reserved offset, or not a whole aligned 32-bit word. Safe: the model stops where the bus goes on with an error
  response, as R65 says a model does. `State.afterBusError` is the state the next transaction then finds. -/
  | busError
deriving DecidableEq, Repr

/-- Why the model has no step. -/
inductive Refusal where
  /-- Raised by `exec` for an instruction without a meaning. No arm answers it: every command has its meaning. Safe. -/
  | notModelled (mnemonic : String)
deriving DecidableEq, Repr

/-- A channel as reset leaves it, with the given unspecified contents (10_state.md R43). -/
def Channel.atReset (crc : Word) (table : Table) : Channel :=
  { variant := .normal, bound := false, armed := false, crc := crc, table := table }

/-- STATUS after reset: every field 0 (10_state.md R38, R43). -/
def Status.atReset : Status :=
  { err := false, emult := false, ecode := 0, ech := 0, rvalid := false }

/-- The block of `n` channels right after its power-up reset (10_state.md R43, 70_reset_and_hazards.md R213), for every
value of the parameter `NCH` (00_scope.md R8). DESIGN CHOICE (log entry 2): the contents of CRC and TABLE, which the spec
leaves unspecified, are 0 here. -/
def State.powerUp (n : Config.ChannelCount) : State :=
  { chans     := List.replicate n.val (Channel.atReset 0 (Vector.replicate 256 0)),
    data      := 0,
    result    := 0,
    status    := Status.atReset,
    inputs    := [],
    response  := none,
    freeDraws := 0 }

/-- The machine right after reset, with the default `NCH` (00_scope.md R8; log entry 1). -/
def State.reset : State := State.powerUp Config.defaultCount

end Sys2Proof.Machine
end

