-- ==== Sys2Proof/Machine/Variants.lean ====
section
/-! DEFINITION. The constants of the two variants (10_state.md R20, R21). -/

namespace Sys2Proof.Machine

/-- `conv(v)` (10_state.md R20, R21). -/
def conv : Variant → Convention
  | .normal => .reflected
  | .mpeg2 => .nonreflected

/-- `poly(v)` (10_state.md R20, R21). -/
def poly : Variant → Word
  | .normal => 0xEDB88320
  | .mpeg2 => 0x04C11DB7

/-- `init(v)` (10_state.md R20, R21). -/
def initValue : Variant → Word
  | .normal => 0xFFFFFFFF
  | .mpeg2 => 0xFFFFFFFF

/-- `xorout(v)` (10_state.md R20, R21). -/
def xorout : Variant → Word
  | .normal => 0xFFFFFFFF
  | .mpeg2 => 0x00000000

end Sys2Proof.Machine
end

