-- ==== Sys2Proof/Machine/Crc.lean ====
section
/-! DEFINITION. The table functions (40_table_builder.md R120 to R122) and the fold (41_accumulator.md R140 to R143),
pure functions shared by the commands. -/

namespace Sys2Proof.Machine

/-- One bit-step of the REFLECTED convention: the bit is tested before the shift (40_table_builder.md R120). -/
def stepReflected (p r : Word) : Word :=
  if r.getLsbD 0 then (r >>> 1) ^^^ p else r >>> 1

/-- One bit-step of the NONREFLECTED convention; the shift truncates to 32 bits (40_table_builder.md R121,
00_scope.md R14). -/
def stepNonreflected (p r : Word) : Word :=
  if r.getLsbD 31 then (r <<< 1) ^^^ p else r <<< 1

/-- `repeat n times` (00_scope.md R16). -/
def repeatStep (f : Word → Word) : Nat → Word → Word
  | 0, r => r
  | n + 1, r => repeatStep f n (f r)

/-- The table whose entry at index `i` is `f i` (10_state.md R24). -/
def tableOf (f : Byte → Word) : Table :=
  ⟨⟨(List.range 256).map fun i => f (BitVec.ofNat 8 i)⟩, by simp⟩

/-- `T[i]`: every index 0..255 is valid (20_memory.md R69). -/
def Table.entry (T : Table) (i : Byte) : Word := T[i.toNat]'i.isLt

/-- `build_reflected(p)` (40_table_builder.md R120). -/
def buildReflected (p : Word) : Table :=
  tableOf fun i => repeatStep (stepReflected p) 8 (i.zeroExtend 32)

/-- `build_nonreflected(p)` (40_table_builder.md R121). -/
def buildNonreflected (p : Word) : Table :=
  tableOf fun i => repeatStep (stepNonreflected p) 8 (i.zeroExtend 32 <<< 24)

/-- `build_table(v)` (40_table_builder.md R122). -/
def buildTable (v : Variant) : Table :=
  match conv v with
  | .reflected => buildReflected (poly v)
  | .nonreflected => buildNonreflected (poly v)

/-- `fold(v, T, r, b)` (41_accumulator.md R140). -/
def fold (v : Variant) (T : Table) (r : Word) (b : Byte) : Word :=
  match conv v with
  | .reflected => T.entry ((r ^^^ b.zeroExtend 32).extractLsb' 0 8) ^^^ (r >>> 8)
  | .nonreflected => T.entry (r.extractLsb' 24 8 ^^^ b) ^^^ (r <<< 8)

/-- `foldseq(v, T, r, bs)`: left to right (41_accumulator.md R141). -/
def foldseq (v : Variant) (T : Table) : Word → List Byte → Word
  | r, [] => r
  | r, b :: bs => foldseq v T (fold v T r b) bs

/-- `crc(v, bs)` (41_accumulator.md R143). -/
def crc (v : Variant) (bs : List Byte) : Word :=
  foldseq v (buildTable v) (initValue v) bs ^^^ xorout v

/-- The channel with `bs` folded into its register, through its own variant and table (41_accumulator.md R145 to
R147). -/
def Channel.absorb (k : Channel) (bs : List Byte) : Channel :=
  { k with crc := foldseq k.variant k.table k.crc bs }

end Sys2Proof.Machine
end

