-- ==== Sys2Proof/Machine/Operands.lean ====
section
/-! DEFINITION. The operand forms: the stream bytes of DATA (20_memory.md R68), the channel set of UPDM
(30_encoding.md R93). -/

namespace Sys2Proof.Machine

/-- Byte lane `k` of a register, bits `[8k+7:8k]`: little-endian (20_memory.md R68). -/
def lane (v : Word) (k : Nat) : Byte := v.extractLsb' (8 * k) 8

/-- The first `n` stream bytes of DATA, the least-significant byte first (20_memory.md R68, 41_accumulator.md
R146). -/
def dataBytes (data : Word) (n : Nat) : List Byte := (List.range n).map (lane data)

/-- Up to four bytes packed for DATA: byte `k` at bits `[8k+7:8k]`, zeros above (30_encoding.md R103 UPDSPAN). -/
def packBytes : List Byte → Word
  | [] => 0
  | b :: bs => b.zeroExtend 32 ||| (packBytes bs <<< 8)

/-- Whether MASK selects channel `j`: bit `j` of the mask (30_encoding.md R93). -/
def selects (mask : BitVec 16) (j : Nat) : Bool := mask.getLsbD j

/-- The lowest channel that MASK selects and the block does not have (41_accumulator.md R147, 60_exceptions.md
R182). -/
def lowestAbsent (mask : BitVec 16) (nch : Nat) : Option Nat :=
  (List.range 16).find? fun j => selects mask j && decide (nch ≤ j)

/-- The mask of a channel list, `UPDM` with a list of channels (30_encoding.md R102). -/
def maskOf (cs : List Nat) : BitVec 16 := BitVec.ofFnLE fun j => cs.contains j.val

end Sys2Proof.Machine
end

