-- ==== Sys2Proof/Machine/Flags.lean ====
section
/-! DEFINITION. The flags (10_state.md R33): how STATUS is written, and the words that STATUS, CHSTAT, CHVAR and PARAM
read as (10_state.md R38 to R41). -/

namespace Sys2Proof.Machine

/-- ECODE of an error (60_exceptions.md R180). -/
def errNumber : ErrCode → BitVec 4
  | .opcode => 1
  | .field => 2
  | .channel => 3
  | .unbound => 4
  | .notStarted => 5

/-- STATUS after `CmdError(code, ch)`: the first error is recorded, a later one sets EMULT (60_exceptions.md R183,
R188). -/
def Status.recordError (t : Status) (e : CmdError) : Status :=
  if t.err then { t with emult := true }
  else { t with err := true, ecode := errNumber e.code, ech := e.ch }

/-- STATUS after CLRERR (42_control.md R171). -/
def Status.clearErrors (t : Status) : Status :=
  { t with err := false, emult := false, ecode := 0, ech := 0 }

/-- STATUS after a FINAL or TREAD that completed (10_state.md R38). -/
def Status.setResultValid (t : Status) : Status := { t with rvalid := true }

/-- One flag as bit `k` of a word. -/
def flagBit (b : Bool) (k : Nat) : Word := (BitVec.ofBool b).zeroExtend 32 <<< k

/-- STATUS as it is read: reserved bits 0 (10_state.md R38). -/
def Status.toWord (t : Status) : Word :=
  flagBit t.err 0 ||| flagBit t.emult 1 ||| (t.ecode.zeroExtend 32 <<< 4) ||| (t.ech.zeroExtend 32 <<< 8) |||
    flagBit t.rvalid 12

/-- The word whose bit `base + c` is `f` of channel `c`, for the channels of a list that begins at channel `base`. -/
def channelBits (f : Channel → Bool) : Nat → List Channel → Word
  | _, [] => 0
  | k, c :: cs => flagBit (f c) k ||| channelBits f (k + 1) cs

/-- CHSTAT: bit `c` reads BOUND[c], bit `16 + c` reads ARMED[c] (10_state.md R39). -/
def chstatWord (s : State) : Word :=
  channelBits Channel.bound 0 s.chans ||| channelBits Channel.armed 16 s.chans

/-- CHVAR: bit `c` reads VARIANT[c] (10_state.md R40). -/
def chvarWord (s : State) : Word :=
  channelBits (fun k => decide (k.variant = .mpeg2)) 0 s.chans

/-- PARAM: bits 4:0 hold NCH (10_state.md R41). -/
def paramWord (s : State) : Word := (BitVec.ofNat 5 s.chans.length).zeroExtend 32

end Sys2Proof.Machine
end

