-- ==== Sys2Proof/Machine/Ops.lean ====
section
/-! DEFINITION. The operations the commands share: reading and writing a channel, the checks of 60_exceptions.md R182,
raising a command error (R183), and the reset input (70_reset_and_hazards.md R210). -/

namespace Sys2Proof.Machine

/-- `NCH` (00_scope.md R8, 10_state.md R22). -/
def State.nch (s : State) : Nat := s.chans.length

/-- Channel `c`'s items; `none` when `c >= NCH` (30_encoding.md R93). -/
def State.channel? (s : State) (c : Nat) : Option Channel := s.chans[c]?

/-- Channel `c` replaced, every other channel as it was (10_state.md R29). -/
def State.setChannel (s : State) (c : Nat) (k : Channel) : State := { s with chans := s.chans.set c k }

/-- RESULT written and RVALID set, as FINAL and TREAD do (10_state.md R37, R38). -/
def State.setResult (s : State) (v : Word) : State :=
  { s with result := v, status := s.status.setResultValid }

/-- STATUS cleared by CLRERR (42_control.md R171). -/
def State.clearErrors (s : State) : State := { s with status := s.status.clearErrors }

/-- TAKING A COMMAND ERROR, the one shared operation: only STATUS is written (60_exceptions.md R183, R185). There is
nothing to return from: the block goes on (R186, R187). -/
def State.takeCmdError (s : State) (e : CmdError) : State := { s with status := s.status.recordError e }

/-- The E_CHANNEL check of a single-channel command (60_exceptions.md R182, R184). -/
def State.requireChannel (s : State) (c : BitVec 4) : Except CmdError Channel :=
  match s.channel? c.toNat with
  | none => .error ⟨.channel, c⟩
  | some k => .ok k

/-- The E_CHANNEL check, then E_UNBOUND (60_exceptions.md R182, R184). -/
def State.requireBound (s : State) (c : BitVec 4) : Except CmdError Channel :=
  match s.requireChannel c with
  | .error e => .error e
  | .ok k => if k.bound then .ok k else .error ⟨.unbound, c⟩

/-- The E_CHANNEL check, then E_UNBOUND, then E_NOTSTARTED (60_exceptions.md R182, R184). -/
def State.requireArmed (s : State) (c : BitVec 4) : Except CmdError Channel :=
  match s.requireBound c with
  | .error e => .error e
  | .ok k => if k.armed then .ok k else .error ⟨.notStarted, c⟩

/-- The error of UPDM on the block's channels, scanned in ascending order from channel `j`: the first selected
channel that fails a check reports its own first failing check (41_accumulator.md R147, 60_exceptions.md R182). -/
def scanSelected (mask : BitVec 16) : Nat → List Channel → Option CmdError
  | _, [] => none
  | j, k :: ks =>
    if selects mask j && !k.bound then some ⟨.unbound, BitVec.ofNat 4 j⟩
    else if selects mask j && !k.armed then some ⟨.notStarted, BitVec.ofNat 4 j⟩
    else scanSelected mask (j + 1) ks

/-- All the checks of UPDM: E_CHANNEL with the lowest offending mask bit first, then the scan (41_accumulator.md
R147, 60_exceptions.md R182, R184). -/
def State.requireSelected (s : State) (mask : BitVec 16) : Except CmdError Unit :=
  match lowestAbsent mask s.nch with
  | some j => .error ⟨.channel, BitVec.ofNat 4 j⟩
  | none =>
    match scanSelected mask 0 s.chans with
    | some e => .error e
    | none => .ok ()

/-- One byte folded into every channel that MASK selects (41_accumulator.md R147, R148). -/
def State.foldSelected (s : State) (mask : BitVec 16) (b : Byte) : State :=
  { s with chans := s.chans.mapIdx fun j k => if selects mask j then k.absorb [b] else k }

/-- A command ends: with its effects, or with the error procedure when a check raised (00_scope.md R16). -/
def State.finish (s : State) : Except CmdError State → Host.Outcome State Fault Refusal
  | .ok t => .next t
  | .error e => .next (s.takeCmdError e)

/-- The reset input: every piece of state takes its value of 10_state.md R43, whatever transaction was in progress
(70_reset_and_hazards.md R210, R211). The contents of CRC and TABLE are free values (log entry 3). The host's later
events stay to come. -/
def State.resetBlock (s : State) : State :=
  { s with
    chans := s.chans.mapIdx fun c _ =>
      Channel.atReset (Config.unspecifiedCrc s.freeDraws c) (tableOf (Config.unspecifiedEntry s.freeDraws c)),
    data := 0,
    result := 0,
    status := Status.atReset,
    response := none,
    freeDraws := s.freeDraws + 1 }

end Sys2Proof.Machine
end

