-- ==== Sys2Proof/Machine/Accumulator.lean ====
section
/-! DEFINITION. START, UPDB, UPDW, UPDM and FINAL (41_accumulator.md). -/

namespace Sys2Proof.Machine

/-- START: the register gets the initial value of the bound variant (41_accumulator.md R144). -/
def execStart (c : BitVec 4) (s : State) : Host.Outcome State Fault Refusal :=
  s.finish ((s.requireBound c).map fun k =>
    s.setChannel c.toNat { k with crc := initValue k.variant, armed := true })

/-- UPDB: one byte (41_accumulator.md R145). -/
def execUpdb (c : BitVec 4) (b : Byte) (s : State) : Host.Outcome State Fault Refusal :=
  s.finish ((s.requireArmed c).map fun k => s.setChannel c.toNat (k.absorb [b]))

/-- UPDW: the first `n` bytes of DATA; the checks are made even when `n` is 0. A count above 4 raises E_FIELD: the
decoder gives none, and the command's own first line says so (41_accumulator.md R146; log entry 12). -/
def execUpdw (c : BitVec 4) (n : BitVec 3) (s : State) : Host.Outcome State Fault Refusal :=
  if 4 < n.toNat then s.finish (.error ⟨.field, c⟩)
  else s.finish ((s.requireArmed c).map fun k => s.setChannel c.toNat (k.absorb (dataBytes s.data n.toNat)))

/-- UPDM: one byte into every selected channel, all the checks before any fold (41_accumulator.md R147). -/
def execUpdm (mask : BitVec 16) (b : Byte) (s : State) : Host.Outcome State Fault Refusal :=
  s.finish ((s.requireSelected mask).map fun _ => s.foldSelected mask b)

/-- FINAL: the checksum goes to RESULT, no channel state changes (41_accumulator.md R150). -/
def execFinal (c : BitVec 4) (s : State) : Host.Outcome State Fault Refusal :=
  s.finish ((s.requireArmed c).map fun k => s.setResult (k.crc ^^^ xorout k.variant))

end Sys2Proof.Machine
end

