-- ==== Sys2Proof/Machine/Control.lean ====
section
/-! DEFINITION. NOP and CLRERR (42_control.md). -/

namespace Sys2Proof.Machine

/-- NOP: no effect (42_control.md R170). -/
def execNop (s : State) : Host.Outcome State Fault Refusal := s.finish (.ok s)

/-- CLRERR: the error record is cleared, RVALID stays (42_control.md R171). -/
def execClrerr (s : State) : Host.Outcome State Fault Refusal := s.finish (.ok s.clearErrors)

end Sys2Proof.Machine
end

