-- ==== Sys2Proof/Machine/TableBuilder.lean ====
section
/-! DEFINITION. INIT and TREAD (40_table_builder.md). -/

namespace Sys2Proof.Machine

/-- INIT: builds the table and binds the variant in one command, and disarms the channel; the stored CRC stays
(40_table_builder.md R124). -/
def execInit (c : BitVec 4) (v : Variant) (s : State) : Host.Outcome State Fault Refusal :=
  s.finish ((s.requireChannel c).map fun k =>
    s.setChannel c.toNat { k with table := buildTable v, variant := v, bound := true, armed := false })

/-- TREAD: RESULT gets one table entry (40_table_builder.md R125). -/
def execTread (c : BitVec 4) (idx : Byte) (s : State) : Host.Outcome State Fault Refusal :=
  s.finish ((s.requireBound c).map fun k => s.setResult (k.table.entry idx))

end Sys2Proof.Machine
end

