-- ==== Sys2Proof/Machine/Dispatch.lean ====
section
/-! DEFINITION. One arm for each constructor of `Instr`, each one call of the command's own meaning. -/

namespace Sys2Proof.Machine

def exec (i : Instr) (s : State) : Host.Outcome State Fault Refusal :=
  match i with
  | .nop => Sys2Proof.Machine.execNop s
  | .init c v => Sys2Proof.Machine.execInit c v s
  | .start c => Sys2Proof.Machine.execStart c s
  | .updb c b => Sys2Proof.Machine.execUpdb c b s
  | .updw c n => Sys2Proof.Machine.execUpdw c n s
  | .updm m b => Sys2Proof.Machine.execUpdm m b s
  | .final c => Sys2Proof.Machine.execFinal c s
  | .tread c x => Sys2Proof.Machine.execTread c x s
  | .clrerr => Sys2Proof.Machine.execClrerr s

end Sys2Proof.Machine
end

