-- ==== Sys2Proof/Machine/Bus.lean ====
section
/-! DEFINITION. The register window: what a bus transaction does (20_memory.md R60 to R67), and one host event
performed in full (20_memory.md R70). -/

namespace Sys2Proof.Machine

/-- The offset the block sees for a platform address, when the window stands at `base`; `none` when the address is
not routed to the block (20_memory.md R60, 00_scope.md R9). -/
def windowOffset (base addr : Nat) : Option (BitVec 5) :=
  if base ≤ addr ∧ addr < base + 32 then some (BitVec.ofNat 5 (addr - base)) else none

/-- The checks of 20_memory.md R66 and R67 on a transfer's width and offset. -/
def accessLegal (off : BitVec 5) (bits : Nat) : Bool :=
  bits == 32 && off.toNat % 4 == 0 && off != 0x1C

/-- `MemRead(off, 4)` and every illegal read (20_memory.md R61, R62, R64, R66, R67). It writes no state. -/
def busRead (s : State) (off : BitVec 5) (bits : Nat) : Except Fault Word :=
  if accessLegal off bits then
    match off.toNat with
    | 0x04 => .ok s.data
    | 0x08 => .ok s.result
    | 0x0C => .ok s.status.toWord
    | 0x10 => .ok (chstatWord s)
    | 0x14 => .ok (chvarWord s)
    | 0x18 => .ok (paramWord s)
    | _ => .error .busError
  else .error .busError

/-- A command word performed: decoded, then run, or its decoding error taken (30_encoding.md R97, 20_memory.md
R63). -/
def performCommand (w : Word) (s : State) : Host.Outcome State Fault Refusal :=
  match decode w with
  | .ok i => exec i s
  | .error e => s.finish (.error e)

/-- `MemWrite(off, 4, v)` and every illegal write (20_memory.md R61, R63, R64, R66, R67). -/
def busWrite (s : State) (off : BitVec 5) (bits : Nat) (strobes : BitVec 4) (v : Word) :
    Host.Outcome State Fault Refusal :=
  if accessLegal off bits && strobes == 0xF then
    match off.toNat with
    | 0x00 => performCommand v s
    | 0x04 => .next { s with data := v }
    | _ => .fault .busError
  else .fault .busError

/-- The bus response given once the effects are complete (20_memory.md R70). -/
def respond (r : Response) : Host.Outcome State Fault Refusal → Host.Outcome State Fault Refusal
  | .next t => .next { t with response := some r }
  | .fault f => .fault f
  | .refused f => .refused f

/-- One bus transaction performed in full (20_memory.md R62, R63, R70, R72). -/
def performTransfer (t : Transfer) (s : State) : Host.Outcome State Fault Refusal :=
  match t with
  | .read off bits =>
    match busRead s off bits with
    | .ok v => respond (.data v) (.next s)
    | .error f => .fault f
  | .write off bits strobes v => respond .done (busWrite s off bits strobes v)

/-- One host event: a transaction, or the reset input, which abandons any transaction in progress
(70_reset_and_hazards.md R211). -/
def performEvent (e : HostEvent) (s : State) : Host.Outcome State Fault Refusal :=
  match e with
  | .transfer t => performTransfer t s
  | .reset _ => .next s.resetBlock

/-- The state the next transaction finds after a bus error: the block as it was, with the error response given
(20_memory.md R65, 60_exceptions.md R189). -/
def State.afterBusError (s : State) : State :=
  { s with inputs := s.inputs.tail, response := some .error }

end Sys2Proof.Machine
end

