-- ==== Sys2Proof/Machine/Step.lean ====
section
/-! DEFINITION. One step: the next host event, performed in full (20_memory.md R70), and the machine of each channel
count (00_scope.md R8). -/

namespace Sys2Proof.Machine

/-- The next host event is taken off the inputs and performed. With no event to come the block stays as it is
(60_exceptions.md R199). -/
def step (s : State) : Host.Outcome State Fault Refusal :=
  match s.inputs with
  | [] => .next s
  | e :: rest => performEvent e { s with inputs := rest }

/-- `s` with a write of the command word to CMD as the host's next transaction (20_memory.md R63): the block fetches
nothing (10_state.md R32), a command runs when the host writes it. Log entry 4. -/
def State.withFetchWord (s : State) (nbits w : Nat) : State :=
  { s with inputs := .transfer (.write 0x00 32 0xF (Decode.tableWord nbits w)) :: s.inputs }

/-- The block of `n` channels as a machine: `NCH` is its argument (00_scope.md R8). `Sys2Proof.core` is the one of the
default. -/
def block (n : Config.ChannelCount) : Host.Core :=
  { State := State, Fault := Fault, Refusal := Refusal, step := step, reset := State.powerUp n }

end Sys2Proof.Machine
end

