-- ==== Sys2Proof/Machine/HostSide.lean ====
section
/-! DEFINITION. The host's side of the window: transactions by register name (30_encoding.md R102), the
pseudo-instructions (R103), the boot and use sequences (70_reset_and_hazards.md R214, R215), the validity duty
(60_exceptions.md R192) and the rendering of a result (41_accumulator.md R156). The block sees only the events. -/

namespace Sys2Proof.Machine

/-- The named registers of the window (20_memory.md R61). -/
inductive Reg where
  | cmd
  | data
  | result
  | status
  | chstat
  | chvar
  | param
deriving DecidableEq, Repr

/-- The offset of a register (20_memory.md R61). -/
def regOffset : Reg → BitVec 5
  | .cmd => 0x00
  | .data => 0x04
  | .result => 0x08
  | .status => 0x0C
  | .chstat => 0x10
  | .chvar => 0x14
  | .param => 0x18

/-- `WR reg, v` (30_encoding.md R102). -/
def wr (r : Reg) (v : Word) : HostEvent := .transfer (.write (regOffset r) 32 0xF v)

/-- `RD reg` (30_encoding.md R102). -/
def rd (r : Reg) : HostEvent := .transfer (.read (regOffset r) 32)

/-- A command mnemonic on its own line: `WR CMD`, its word (30_encoding.md R102). -/
def issue (i : Instr) : HostEvent := wr .cmd (encode i)

/-- `COMPUTE ch, b0, ..., b(n-1)` (30_encoding.md R103). -/
def compute (c : BitVec 4) (bs : List Byte) : List HostEvent :=
  issue (.start c) :: (bs.map fun b => issue (.updb c b)) ++ [issue (.final c)]

/-- `UPDSTR ch, "text"`: the bytes of the ASCII text, no terminator (30_encoding.md R103). -/
def updstr (c : BitVec 4) (text : List Char) : List HostEvent :=
  text.map fun x => issue (.updb c (BitVec.ofNat 8 x.toNat))

/-- Bytes cut into groups of 4 from the start, the last group holding the rest (30_encoding.md R103). -/
def groupsOfFour : List Byte → List (List Byte)
  | [] => []
  | a :: b :: c :: d :: rest => [a, b, c, d] :: groupsOfFour rest
  | short => [short]

/-- `UPDSPAN ch, b0, ..., b(n-1)`: for each group `WR DATA` and `UPDW` (30_encoding.md R103). -/
def updspan (c : BitVec 4) (bs : List Byte) : List HostEvent :=
  (groupsOfFour bs).flatMap fun g => [wr .data (packBytes g), issue (.updw c (BitVec.ofNat 3 g.length))]

/-- `BOOT`, for a block of at least two channels (30_encoding.md R103). -/
def boot : List HostEvent := [issue (.init 0 .normal), issue (.init 1 .mpeg2)]

/-- The boot sequence after reset for the channels to be used (70_reset_and_hazards.md R214). -/
def bootSequence (uses : List (BitVec 4 × Variant)) : List HostEvent :=
  rd .param :: (uses.map fun u => issue (.init u.1 u.2)) ++ [rd .status]

/-- One checksum run on a set of bound channels, around the update commands of the stream
(70_reset_and_hazards.md R215). -/
def checksumRun (cs : List (BitVec 4)) (stream : List HostEvent) : List HostEvent :=
  issue .clrerr :: (cs.map fun c => issue (.start c)) ++ stream ++
    (cs.flatMap fun c => [issue (.final c), rd .result]) ++ [rd .status]

/-- Whether a run's result may be reported: ERR was 0 before its START (as read, or after CLRERR), ERR is 0 as read
after its FINAL, and every byte of the stream was delivered (60_exceptions.md R192). -/
def reportable (statusBefore statusAfter : Word) (delivered : Bool) : Bool :=
  !statusBefore.getLsbD 0 && !statusAfter.getLsbD 0 && delivered

/-- One hexadecimal digit, upper-case (41_accumulator.md R156). -/
def hexDigit (d : BitVec 4) : Char :=
  if d.toNat < 10 then Char.ofNat (48 + d.toNat) else Char.ofNat (55 + d.toNat)

/-- A result as the host shows it: `0x` and 8 digits, most significant first (41_accumulator.md R156). -/
def renderResult (v : Word) : List Char :=
  ['0', 'x'] ++ ((List.range 8).map fun k => hexDigit (v.extractLsb' (28 - 4 * k) 4))

end Sys2Proof.Machine
end

