-- ==== Sys2Proof/Safety.lean ====
section
/-! DEFINITION. The terms the claims use: the command a host event writes, when a command is accepted (60_exceptions.md
R182), the invariants of every reachable state (10_state.md R28, R38), what no host can see (R42, R43), and a stream
folded into one channel (41_accumulator.md R153). -/

namespace Sys2Proof

/-- The channel a single-channel command names with its CH field (30_encoding.md R92). -/
def Instr.channel? : Instr → Option (BitVec 4)
  | .nop => none
  | .init c _ => some c
  | .start c => some c
  | .updb c _ => some c
  | .updw c _ => some c
  | .updm _ _ => none
  | .final c => some c
  | .tread c _ => some c
  | .clrerr => none

/-- The commands that raise E_UNBOUND on a channel with BOUND = 0 (60_exceptions.md R180). -/
def Instr.needsBound : Instr → Bool
  | .nop => false
  | .init _ _ => false
  | .start _ => true
  | .updb _ _ => true
  | .updw _ _ => true
  | .updm _ _ => true
  | .final _ => true
  | .tread _ _ => true
  | .clrerr => false

/-- The commands that raise E_NOTSTARTED on a channel with ARMED = 0 (60_exceptions.md R180). -/
def Instr.needsArmed : Instr → Bool
  | .nop => false
  | .init _ _ => false
  | .start _ => false
  | .updb _ _ => true
  | .updw _ _ => true
  | .updm _ _ => true
  | .final _ => true
  | .tread _ _ => false
  | .clrerr => false

/-- Whether a command selects channel `d`: by its CH field, or by a mask bit (30_encoding.md R93). -/
def Instr.touches (i : Instr) (d : Nat) : Bool :=
  match i with
  | .nop => false
  | .init c _ => c.toNat == d
  | .start c => c.toNat == d
  | .updb c _ => c.toNat == d
  | .updw c _ => c.toNat == d
  | .updm m _ => Machine.selects m d
  | .final c => c.toNat == d
  | .tread c _ => c.toNat == d
  | .clrerr => false

/-- Whether a word with a defined opcode has a reserved bit of its format set, or is UPDW with N in 5..7
(30_encoding.md R92, R99). A word with a reserved opcode has no format. -/
def reservedBitsSet (w : Word) : Bool :=
  match (w.extractLsb' 28 4).toNat with
  | 0x0 => w.extractLsb' 0 28 != 0
  | 0x1 => w.extractLsb' 1 23 != 0
  | 0x2 => w.extractLsb' 0 24 != 0
  | 0x3 => w.extractLsb' 8 16 != 0
  | 0x4 => w.extractLsb' 3 21 != 0 || decide (4 < (w.extractLsb' 0 3).toNat)
  | 0x5 => w.extractLsb' 24 4 != 0
  | 0x6 => w.extractLsb' 0 24 != 0
  | 0x7 => w.extractLsb' 8 16 != 0
  | 0x8 => w.extractLsb' 0 28 != 0
  | _ => false

namespace Machine

/-- Channel `c` exists, is bound if `bound` is asked for, and armed if `armed` is. -/
def State.ready (s : State) (c : Nat) (bound armed : Bool) : Bool :=
  match s.chans[c]? with
  | none => false
  | some k => (!bound || k.bound) && (!armed || k.armed)

/-- The command passes every check made after decoding (60_exceptions.md R182). -/
def accepted (i : Instr) (s : State) : Bool :=
  i.wellFormed &&
    match i with
    | .updm m _ => (List.range 16).all fun j => !selects m j || s.ready j true true
    | _ =>
      match i.channel? with
      | none => true
      | some c => s.ready c.toNat i.needsBound i.needsArmed

/-- The error a command word raises, from the order of the checks in 60_exceptions.md R182 and the channel recorded in
R184, one constructor for each check. -/
inductive Raises (w : Word) (s : State) : CmdError → Prop where
  /-- 1. E_OPCODE. -/
  | opcode : 9 ≤ (w.extractLsb' 28 4).toNat → Raises w s ⟨.opcode, w.extractLsb' 24 4⟩
  /-- 2. E_FIELD. -/
  | field : (w.extractLsb' 28 4).toNat < 9 → reservedBitsSet w = true → Raises w s ⟨.field, w.extractLsb' 24 4⟩
  /-- 3. E_CHANNEL of a single-channel command. -/
  | channel (i : Instr) (c : BitVec 4) : decode w = .ok i → i.channel? = some c → s.nch ≤ c.toNat →
      Raises w s ⟨.channel, w.extractLsb' 24 4⟩
  /-- 4. E_UNBOUND of a single-channel command. -/
  | unbound (i : Instr) (c : BitVec 4) (k : Channel) : decode w = .ok i → i.channel? = some c →
      s.chans[c.toNat]? = some k → i.needsBound = true → k.bound = false →
      Raises w s ⟨.unbound, w.extractLsb' 24 4⟩
  /-- 5. E_NOTSTARTED of a single-channel command. -/
  | notStarted (i : Instr) (c : BitVec 4) (k : Channel) : decode w = .ok i → i.channel? = some c →
      s.chans[c.toNat]? = some k → i.needsArmed = true → k.bound = true → k.armed = false →
      Raises w s ⟨.notStarted, w.extractLsb' 24 4⟩
  /-- 3. E_CHANNEL of UPDM: the lowest offending mask bit. -/
  | maskChannel (m : BitVec 16) (b : Byte) (j : Nat) : decode w = .ok (.updm m b) → m.getLsbD j = true → s.nch ≤ j →
      (∀ l, l < j → m.getLsbD l = true → l < s.nch) → Raises w s ⟨.channel, BitVec.ofNat 4 j⟩
  /-- 4. E_UNBOUND of UPDM: the first selected channel that fails a check is not bound. -/
  | maskUnbound (m : BitVec 16) (b : Byte) (j : Nat) (k : Channel) : decode w = .ok (.updm m b) →
      (∀ l, m.getLsbD l = true → l < s.nch) → m.getLsbD j = true → s.chans[j]? = some k →
      (∀ l, l < j → m.getLsbD l = true → s.ready l true true = true) → k.bound = false →
      Raises w s ⟨.unbound, BitVec.ofNat 4 j⟩
  /-- 5. E_NOTSTARTED of UPDM: the first selected channel that fails a check is bound and not armed. -/
  | maskNotStarted (m : BitVec 16) (b : Byte) (j : Nat) (k : Channel) : decode w = .ok (.updm m b) →
      (∀ l, m.getLsbD l = true → l < s.nch) → m.getLsbD j = true → s.chans[j]? = some k →
      (∀ l, l < j → m.getLsbD l = true → s.ready l true true = true) → k.bound = true → k.armed = false →
      Raises w s ⟨.notStarted, BitVec.ofNat 4 j⟩

/-- A transfer the window answers with an error response (20_memory.md R64, R66, R67): not a whole aligned 32-bit
word, at the reserved offset, or against the register's direction. -/
def illegalTransfer : Transfer → Bool
  | .read off bits =>
    bits != 32 || off.toNat % 4 != 0 || off == 0x1C || off == regOffset .cmd
  | .write off bits strobes _ =>
    bits != 32 || off.toNat % 4 != 0 || off == 0x1C || strobes != 0xF ||
      [Reg.result, .status, .chstat, .chvar, .param].any fun r => off == regOffset r

/-- The word that the next host event writes to CMD, if it is such a write (20_memory.md R63). -/
def State.pendingWord (s : State) : Option Word :=
  match s.inputs with
  | .transfer (.write off bits strobes w) :: _ =>
    if off = regOffset .cmd ∧ bits = 32 ∧ strobes = 0xF then some w else none
  | _ => none

/-- The command that the next host event writes to CMD, if its word is one. -/
def State.pending (s : State) : Option Instr :=
  match s.pendingWord with
  | none => none
  | some w =>
    match decode w with
    | .ok i => some i
    | .error _ => none

/-- The next host event is the reset input. -/
def State.resetNext (s : State) : Bool :=
  match s.inputs with
  | .reset _ :: _ => true
  | _ => false

/-- The next host event is a CMD write whose word raises a command error. -/
def State.errorNext (s : State) : Bool :=
  match s.pendingWord with
  | none => false
  | some w =>
    match decode w with
    | .error _ => true
    | .ok i => !accepted i s

/-- Commands performed one after the other, stopping at a fault or a refusal. -/
def execAll : List Instr → State → Host.Outcome State Fault Refusal
  | [], s => .next s
  | i :: is, s =>
    match exec i s with
    | .next t => execAll is t
    | .fault f => .fault f
    | .refused r => .refused r

/-- What holds of a channel in every reachable state (10_state.md R28 (a), (b), (c)). -/
structure Channel.Legal (k : Channel) : Prop where
  armed_bound : k.armed = true → k.bound = true
  bound_table : k.bound = true → k.table = buildTable k.variant
  armed_crc   : k.armed = true → ∃ bs, k.crc = foldseq k.variant (buildTable k.variant) (initValue k.variant) bs

/-- The legal values of STATUS on a block of `nch` channels (10_state.md R38, 60_exceptions.md R180, R184). -/
structure Status.Legal (t : Status) (nch : Nat) : Prop where
  ecode_le      : t.ecode.toNat ≤ 5
  clear_zero    : t.err = false → t.emult = false ∧ t.ecode = 0 ∧ t.ech = 0
  err_code      : t.err = true → t.ecode ≠ 0
  ech_absent    : t.ecode = errNumber .channel → nch ≤ t.ech.toNat
  ech_exists    : t.ecode = errNumber .unbound ∨ t.ecode = errNumber .notStarted → t.ech.toNat < nch

/-- The invariant: NCH in its range (00_scope.md R8), every channel and STATUS legal, and RESULT at its reset value
until RVALID is set (10_state.md R37, R38). -/
structure State.Inv (s : State) : Prop where
  nch_range    : Config.minChannels ≤ s.nch ∧ s.nch ≤ Config.maxChannels
  chans_legal  : ∀ k ∈ s.chans, k.Legal
  status_legal : s.status.Legal s.nch
  result_valid : s.status.rvalid = false → s.result = 0

/-- Two channels that differ at most in contents the spec leaves unspecified: CRC while not armed, TABLE while not
bound (10_state.md R43). -/
structure Channel.SameVisible (k l : Channel) : Prop where
  variant : k.variant = l.variant
  bound   : k.bound = l.bound
  armed   : k.armed = l.armed
  crc     : k.armed = true → k.crc = l.crc
  table   : k.bound = true → k.table = l.table

/-- Two states that differ at most in unspecified contents and in the model's count of free values. -/
structure State.SameVisible (s t : State) : Prop where
  chans    : List.Forall₂ Channel.SameVisible s.chans t.chans
  data     : s.data = t.data
  result   : s.result = t.result
  status   : s.status = t.status
  inputs   : s.inputs = t.inputs
  response : s.response = t.response

/-- The bytes that a command folds into channel `c`, in order: none when it raises an error (41_accumulator.md R145 to
R147). -/
def foldedInto (c : Nat) (i : Instr) (s : State) : List Byte :=
  if accepted i s && i.touches c then
    match i with
    | .updb _ b => [b]
    | .updw _ n => dataBytes s.data n.toNat
    | .updm _ b => [b]
    | _ => []
  else []

/-- The bytes that the next host event folds into channel `c`. -/
def State.streamed (s : State) (c : Nat) : List Byte :=
  match s.pending with
  | none => []
  | some i => foldedInto c i s

/-- The next host event is neither the reset input nor an INIT or START of channel `c` (41_accumulator.md R153). -/
def State.undisturbed (s : State) (c : Nat) : Bool :=
  !s.resetNext &&
    match s.pending with
    | some (.init d _) => d.toNat != c
    | some (.start d) => d.toNat != c
    | _ => true

/-- A run of steps, from the first state to the last, that leaves channel `c` undisturbed and folds the listed bytes
into it, in order. Any other events, on this or other channels, may stand between. -/
inductive StreamRun (c : Nat) : State → List Byte → State → Prop where
  | refl (s : State) : StreamRun c s [] s
  | step {s t u : State} {bs : List Byte} : s.undisturbed c = true → Machine.step s = .next t →
      StreamRun c t bs u → StreamRun c s (s.streamed c ++ bs) u

end Machine

end Sys2Proof
end

