-- ==== Sys2Proof/Certificates/Slice0/Obligations.lean ====
section
/-! DEFINITION. The statements for the provers. Each docstring names the rule of the spec that it formalises. -/

open Sys2Proof Sys2Proof.Machine

/-! ## The encoding -/

/-- The worked encodings of 30_encoding.md section 5 (R104, the spec's own derivation) decode as listed. -/
def Obligations.WorkedEncodingsDecode : Prop :=
  decode 0x11000001 = .ok (.init 1 .mpeg2) ∧ decode 0x30000031 = .ok (.updb 0 0x31) ∧
  decode 0x41000004 = .ok (.updw 1 4) ∧ decode 0x50000331 = .ok (.updm 0x0003 0x31) ∧
  decode 0x61000000 = .ok (.final 1) ∧ decode 0x700000FF = .ok (.tread 0 0xFF) ∧
  decode 0x00000001 = .error ⟨.field, 0⟩ ∧ decode 0x90000000 = .error ⟨.opcode, 0⟩

/-- Decoding the command word of a well-formed instruction gives the instruction back, every operand at every value
(30_encoding.md sections 1 to 3). -/
def Obligations.DecodeOfEncodeIsTheInstruction : Prop :=
  ∀ i : Instr, i.wellFormed = true → decode (encode i) = .ok i

/-- A word that decodes is the command word of what it decodes to, and that is well formed: each command has one word
(30_encoding.md sections 1 to 3). -/
def Obligations.EncodeOfDecodeIsTheWord : Prop :=
  ∀ (w : Word) (i : Instr), decode w = .ok i → encode i = w ∧ i.wellFormed = true

/-- A word with a reserved opcode raises E_OPCODE whatever its other bits are, records `w[27:24]`, and performs no
operation (30_encoding.md R98). -/
def Obligations.ReservedOpcodesRaiseOpcodeError : Prop :=
  ∀ (w : Word) (s : State), 9 ≤ (w.extractLsb' 28 4).toNat →
    decode w = .error ⟨.opcode, w.extractLsb' 24 4⟩ ∧
    performCommand w s = .next { s with status := s.status.recordError ⟨.opcode, w.extractLsb' 24 4⟩ }

/-- A word with a defined opcode raises E_FIELD if a reserved bit of its format is 1, or it is UPDW with N in 5..7; it
performs no operation (30_encoding.md R99). -/
def Obligations.ReservedBitsRaiseFieldError : Prop :=
  ∀ (w : Word) (s : State), (w.extractLsb' 28 4).toNat < 9 → reservedBitsSet w = true →
    decode w = .error ⟨.field, w.extractLsb' 24 4⟩ ∧
    performCommand w s = .next { s with status := s.status.recordError ⟨.field, w.extractLsb' 24 4⟩ }

/-- Every word with a defined opcode and no reserved bit set is a command of that opcode: decoding is total
(30_encoding.md section 3). -/
def Obligations.EveryOtherWordIsACommand : Prop :=
  ∀ w : Word, (w.extractLsb' 28 4).toNat < 9 → reservedBitsSet w = false →
    ∃ i, decode w = .ok i ∧ i.opcode = w.extractLsb' 28 4

/-! ## A step -/

/-- A write transaction (20_memory.md R63): CMD performs the word and always completes, also when the command raises a
command error; DATA stores the word; a read-only register or an illegal access is a bus error. How the model holds the bus
response and the bus error is its own choice (log entries 5 and 6). -/
def Obligations.WriteTransactions : Prop :=
  ∀ (s : State) (rest : List HostEvent) (v : Word),
    (s.inputs = .transfer (.write 0x00 32 0xF v) :: rest →
      step s = respond .done (performCommand v { s with inputs := rest }) ∧ ∃ t, step s = .next t) ∧
    (s.inputs = .transfer (.write 0x04 32 0xF v) :: rest →
      step s = .next { s with inputs := rest, data := v, response := some .done }) ∧
    (∀ off ∈ [0x08, 0x0C, 0x10, 0x14, 0x18], s.inputs = .transfer (.write off 32 0xF v) :: rest →
      step s = .fault .busError) ∧
    (∀ off bits strobes, bits ≠ 32 ∨ off.toNat % 4 ≠ 0 ∨ strobes ≠ 0xF ∨ off = 0x1C →
      s.inputs = .transfer (.write off bits strobes v) :: rest → step s = .fault .busError)

/-- When the next host event is a whole-word write to CMD whose word decodes to `i`, the step runs `i` and then gives
the bus response; `withFetchWord` places such an event (20_memory.md sections 1 and 3; log entry 4). -/
def Obligations.StepRunsTheDecodedCommand : Prop :=
  (∀ (s : State) (rest : List HostEvent) (w : Word) (i : Instr),
    s.inputs = .transfer (.write 0x00 32 0xF w) :: rest → decode w = .ok i →
      step s = respond .done (exec i { s with inputs := rest })) ∧
  (∀ (s : State) (w : Word) (i : Instr), decode w = .ok i →
      step (s.withFetchWord 32 w.toNat) = respond .done (exec i s))

/-- A step stops exactly at an access against a register's direction, at the reserved offset, or that is not a whole
aligned 32-bit word; it never refuses; and the state the next transaction finds differs only in the event taken and
the error response (20_memory.md R64, R66, R67). That the step then has no next state, and the field that holds the
response, are the model's own (log entries 5 and 6). -/
def Obligations.OnlyIllegalAccessesFault : Prop :=
  ∀ s : State,
    (step s = .fault .busError ↔ ∃ tr rest, s.inputs = .transfer tr :: rest ∧ illegalTransfer tr = true) ∧
    (∀ r, step s ≠ .refused r) ∧
    (step s = .fault .busError → s.afterBusError = { s with inputs := s.inputs.tail, response := some .error })

/-- A read transaction returns the register at its offset and writes no state; a read of CMD or an illegal read is a bus
error (20_memory.md R62). How the model holds the bus response and the bus error is its own choice (log entries 5 and
6). -/
def Obligations.ReadTransactions : Prop :=
  ∀ (s : State) (rest : List HostEvent),
    (∀ off v, (off, v) ∈ [((0x04 : BitVec 5), s.data), (0x08, s.result), (0x0C, s.status.toWord), (0x10, chstatWord s),
        (0x14, chvarWord s), (0x18, paramWord s)] →
      s.inputs = .transfer (.read off 32) :: rest →
      step s = .next { s with inputs := rest, response := some (.data v) }) ∧
    (s.inputs = .transfer (.read 0x00 32) :: rest → step s = .fault .busError) ∧
    (∀ off bits, bits ≠ 32 ∨ off.toNat % 4 ≠ 0 ∨ off = 0x1C →
      s.inputs = .transfer (.read off bits) :: rest → step s = .fault .busError)

/-- A repeated read and a repeated DATA write change nothing more; a repeated UPDB folds its byte twice; a repeated
FINAL or TREAD gives the same RESULT (20_memory.md section 3). -/
def Obligations.RepeatedTransactions : Prop :=
  (∀ (s t : State) (off : BitVec 5) (bits : Nat) (rest : List HostEvent),
    s.inputs = .transfer (.read off bits) :: .transfer (.read off bits) :: rest → step s = .next t →
      step t = .next { t with inputs := rest }) ∧
  (∀ (s t : State) (v : Word) (rest : List HostEvent),
    s.inputs = .transfer (.write 0x04 32 0xF v) :: .transfer (.write 0x04 32 0xF v) :: rest → step s = .next t →
      step t = .next { t with inputs := rest }) ∧
  (∀ (s : State) (c : BitVec 4) (b : Byte) (k : Channel), s.chans[c.toNat]? = some k → k.bound = true →
      k.armed = true →
      execAll [.updb c b, .updb c b] s =
        .next { s with
          chans := s.chans.set c.toNat
            { k with crc := fold k.variant k.table (fold k.variant k.table k.crc b) b } }) ∧
  (∀ (s t : State) (c : BitVec 4), accepted (.final c) s = true → exec (.final c) s = .next t →
      exec (.final c) t = .next t) ∧
  (∀ (s t : State) (c : BitVec 4) (x : Byte), accepted (.tread c x) s = true → exec (.tread c x) s = .next t →
      exec (.tread c x) t = .next t)

/-- STATUS reads each field at its place and 0 at its reserved bits (10_state.md section 4). -/
def Obligations.StatusReadsItsFields : Prop :=
  ∀ t : Status,
    t.toWord.getLsbD 0 = t.err ∧ t.toWord.getLsbD 1 = t.emult ∧ t.toWord.extractLsb' 2 2 = 0 ∧
    t.toWord.extractLsb' 4 4 = t.ecode ∧ t.toWord.extractLsb' 8 4 = t.ech ∧ t.toWord.getLsbD 12 = t.rvalid ∧
    t.toWord.extractLsb' 13 19 = 0

/-- CHSTAT and CHVAR read BOUND, ARMED and VARIANT of each channel, and 0 for a channel the block does not have
(10_state.md section 4, R39 and R40, which the spec derives). -/
def Obligations.ChannelViewsReadTheChannels : Prop :=
  ∀ s : State, s.nch ≤ 16 →
    (∀ c k, s.chans[c]? = some k →
      (chstatWord s).getLsbD c = k.bound ∧ (chstatWord s).getLsbD (16 + c) = k.armed ∧
      (chvarWord s).getLsbD c = decide (k.variant = .mpeg2)) ∧
    (∀ c, s.nch ≤ c → c < 16 → (chstatWord s).getLsbD c = false ∧ (chstatWord s).getLsbD (16 + c) = false) ∧
    (∀ c, s.nch ≤ c → (chvarWord s).getLsbD c = false)

/-- PARAM: bits 4:0 hold NCH, bits 31:5 read 0, at all times (10_state.md R41). -/
def Obligations.ParamReadsTheChannelCount : Prop :=
  ∀ s : State, s.nch ≤ 16 →
    ((paramWord s).extractLsb' 0 5).toNat = s.nch ∧ (paramWord s).extractLsb' 5 27 = 0 ∧
    ∀ t, step s = .next t → paramWord t = paramWord s

/-- With no host event to come, the block stays as it was (60_exceptions.md section 3; the model's choice of log
entry 4). -/
def Obligations.IdleBlockStaysAsItWas : Prop :=
  ∀ s : State, s.inputs = [] → step s = .next s

/-- The platform routes `BASE + off` to the block as `off`, for every BASE, and no other address (20_memory.md
section 1; log entry 8). -/
def Obligations.WindowRoutesItsOffsets : Prop :=
  (∀ base off : Nat, off < 32 → windowOffset base (base + off) = some (BitVec.ofNat 5 off)) ∧
  (∀ base addr : Nat, addr < base ∨ base + 32 ≤ addr → windowOffset base addr = none)

/-! ## Reset -/

/-- The reset values that the spec gives (10_state.md R43), in the power-up state of the block of every channel count
NCH, whose default is the state a run begins in; PARAM reads NCH. Nothing is said of the unspecified CRC and TABLE. -/
def Obligations.PowerUpResetValues : Prop :=
  State.reset = State.powerUp Config.defaultCount ∧
  ∀ n : Config.ChannelCount,
    (State.powerUp n).nch = n.val ∧
    (∀ k ∈ (State.powerUp n).chans, k.variant = .normal ∧ k.bound = false ∧ k.armed = false) ∧
    (State.powerUp n).data = 0 ∧ (State.powerUp n).result = 0 ∧ (State.powerUp n).status.toWord = 0 ∧
    (State.powerUp n).status = { err := false, emult := false, ecode := 0, ech := 0, rvalid := false } ∧
    chstatWord (State.powerUp n) = 0 ∧ chvarWord (State.powerUp n) = 0 ∧
    (paramWord (State.powerUp n)).toNat = n.val

/-- NCH is a parameter of the block, from 1 to 16, with default 2: there is a block of each such channel count and of no
other, and on every list of host events every run of the block of `n` channels has the channels 0 to `n - 1`
(00_scope.md R8). That host events come as a list is the model's own (log entry 4). -/
def Obligations.ChannelCountIsAParameter : Prop :=
  (∀ m : Nat, (∃ n : Config.ChannelCount, n.val = m) ↔ 1 ≤ m ∧ m ≤ 16) ∧
  Config.defaultCount.val = 2 ∧ State.reset = State.powerUp Config.defaultCount ∧
  ∀ (n : Config.ChannelCount) (es : List HostEvent) (steps : Nat) (t : State),
    Host.Core.run (block n) steps { State.powerUp n with inputs := es } = .next t →
      t.nch = n.val ∧ ∀ c : Nat, (∃ k, t.chans[c]? = some k) ↔ c < n.val

/-- The reset input puts every piece of state at its value of 10_state.md R43, whatever transaction was in progress, and
the block then goes on (70_reset_and_hazards.md R210). That reset is one event of the input list is the model's own (log
entries 4 and 7). -/
def Obligations.ResetInputGivesTheResetValues : Prop :=
  ∀ (s : State) (a : Option Transfer) (rest : List HostEvent), s.inputs = .reset a :: rest →
    ∃ t, step s = .next t ∧ t.nch = s.nch ∧ t.inputs = rest ∧
      (∀ k ∈ t.chans, k.variant = .normal ∧ k.bound = false ∧ k.armed = false) ∧
      t.data = 0 ∧ t.result = 0 ∧ t.status.toWord = 0 ∧
      t.status = { err := false, emult := false, ecode := 0, ech := 0, rvalid := false } ∧
      chstatWord t = 0 ∧ chvarWord t = 0

/-- The invariant holds in the state a run begins in, and in the power-up state of the block of every channel count. -/
def Obligations.ResetStateMeetsTheInvariant : Prop :=
  State.reset.Inv ∧ ∀ n : Config.ChannelCount, (State.powerUp n).Inv

/-! ## The whole machine -/

/-- Every step keeps the invariant: a table always belongs to its channel's variant, an armed channel is bound and its
register comes from START and folds under that variant, and STATUS keeps its legal values (10_state.md section 2, R28,
which the spec derives, and section 4). -/
def Obligations.StepKeepsTheInvariant : Prop :=
  ∀ s t : State, s.Inv → step s = .next t → t.Inv

/-- What the spec leaves unspecified can never be observed: two states that differ at most in CRC of unarmed channels,
TABLE of unbound channels and the model's free values step alike, to two such states, with the same responses, STATUS
and RESULT (10_state.md sections 5 and 6; log entries 2 and 3). -/
def Obligations.UnspecifiedContentsAreNeverObserved : Prop :=
  ∀ s u : State, s.SameVisible u →
    (∀ t, step s = .next t → ∃ v, step u = .next v ∧ t.SameVisible v) ∧
    (∀ f, step s = .fault f → step u = .fault f)

/-- Each flag is set and cleared only by the events listed for it (10_state.md section 3). -/
def Obligations.FlagsChangeOnlyAsListed : Prop :=
  ∀ s t : State, step s = .next t →
    (s.status.err = false → t.status.err = true → s.errorNext = true) ∧
    (s.status.err = true → t.status.err = false → s.pending = some .clrerr ∨ s.resetNext = true) ∧
    (s.status.emult = false → t.status.emult = true → s.errorNext = true ∧ s.status.err = true) ∧
    (s.status.emult = true → t.status.emult = false → s.pending = some .clrerr ∨ s.resetNext = true) ∧
    (s.status.rvalid = false → t.status.rvalid = true → ∃ i, s.pending = some i ∧ accepted i s = true ∧
      ((∃ c, i = .final c) ∨ ∃ c x, i = .tread c x)) ∧
    (s.status.rvalid = true → t.status.rvalid = false → s.resetNext = true) ∧
    ∀ c k l, s.chans[c]? = some k → t.chans[c]? = some l →
      (k.bound = false → l.bound = true → ∃ d v, s.pending = some (.init d v) ∧ d.toNat = c) ∧
      (k.bound = true → l.bound = false → s.resetNext = true) ∧
      (k.armed = false → l.armed = true → ∃ d, s.pending = some (.start d) ∧ d.toNat = c) ∧
      (k.armed = true → l.armed = false →
        (∃ d v, s.pending = some (.init d v) ∧ d.toNat = c) ∨ s.resetNext = true)

/-- Once an error is recorded, only CLRERR and the reset input clear the record, and they clear all of it
(60_exceptions.md R187). -/
def Obligations.ErrorRecordStaysUntilCleared : Prop :=
  ∀ s t : State, step s = .next t → s.status.err = true →
    (s.pending ≠ some .clrerr → s.resetNext = false →
      t.status.err = true ∧ t.status.ecode = s.status.ecode ∧ t.status.ech = s.status.ech ∧
      (s.status.emult = true → t.status.emult = true)) ∧
    (s.pending = some .clrerr ∨ s.resetNext = true →
      t.status.err = false ∧ t.status.emult = false ∧ t.status.ecode = 0 ∧ t.status.ech = 0)

/-- ERR = 0 after a step that is neither CLRERR nor the reset input means ERR was 0 before it and its command, if any,
raised no error: so a run with ERR = 0 at both ends and no CLRERR between lost no byte (60_exceptions.md section 1,
the duty of R192). -/
def Obligations.CleanStatusMeansNoErrorWasRaised : Prop :=
  ∀ s t : State, step s = .next t → t.status.err = false → s.pending ≠ some .clrerr → s.resetNext = false →
    s.status.err = false ∧ s.errorNext = false

/-- Only the host's DATA write and the reset input change DATA (10_state.md section 4). -/
def Obligations.OnlyTheHostWritesData : Prop :=
  ∀ s t : State, step s = .next t →
    t.data = s.data ∨ (s.resetNext = true ∧ t.data = 0) ∨
      ∃ rest, s.inputs = .transfer (.write 0x04 32 0xF t.data) :: rest

/-- Only an accepted FINAL or TREAD, with its value, and the reset input change RESULT (10_state.md section 4). -/
def Obligations.OnlyFinalAndTreadWriteResult : Prop :=
  ∀ s t : State, step s = .next t →
    t.result = s.result ∨ (s.resetNext = true ∧ t.result = 0) ∨
    (∃ c k, s.pending = some (.final c) ∧ s.chans[c.toNat]? = some k ∧ k.bound = true ∧ k.armed = true ∧
      t.result = k.crc ^^^ xorout k.variant) ∨
    (∃ c x k, s.pending = some (.tread c x) ∧ s.chans[c.toNat]? = some k ∧ k.bound = true ∧
      t.result = k.table.entry x)

/-! ## Command errors -/

/-- The error procedure: the first error is recorded with its code and channel, a later one sets EMULT and keeps the
first; no other state is written, and the CMD write completes normally (60_exceptions.md R183). The field that holds the
bus response is the model's own (log entry 6). -/
def Obligations.CommandErrorProcedure : Prop :=
  (∀ (s : State) (e : CmdError), s.status.err = false →
    s.takeCmdError e = { s with status :=
      { s.status with
        err := true,
        ecode := (match e.code with | .opcode => 1 | .field => 2 | .channel => 3 | .unbound => 4 | .notStarted => 5),
        ech := e.ch } }) ∧
  (∀ (s : State) (e : CmdError), s.status.err = true →
    s.takeCmdError e = { s with status := { s.status with emult := true } }) ∧
  (∀ (s : State) (w : Word) (rest : List HostEvent) (e : CmdError),
    s.inputs = .transfer (.write 0x00 32 0xF w) :: rest → Raises w { s with inputs := rest } e →
    step s = .next { s.takeCmdError e with inputs := rest, response := some .done })

/-- A command that fails a check changes only STATUS; one that passes its checks cannot fail, and records no error
(60_exceptions.md section 1, R181 and R185). -/
def Obligations.RaisingCommandsChangeOnlyStatus : Prop :=
  ∀ (i : Instr) (s : State),
    (accepted i s = false → ∃ e, exec i s = .next { s with status := s.status.recordError e }) ∧
    (accepted i s = true → ∃ t, exec i s = .next t ∧
      (i ≠ .clrerr → t.status = { s.status with rvalid := t.status.rvalid }))

/-- The checks in their order: the word raises the error of the first check that fails, with the channel recorded as
listed, exactly one; a word that fails no check is an accepted command (60_exceptions.md R182, R184). -/
def Obligations.FirstFailingCheckIsReported : Prop :=
  ∀ (w : Word) (s : State),
    (∀ e, Raises w s e → performCommand w s = .next { s with status := s.status.recordError e }) ∧
    (∀ e e', Raises w s e → Raises w s e' → e = e') ∧
    ((∀ e, ¬ Raises w s e) → ∃ i, decode w = .ok i ∧ accepted i s = true)

/-- A command is performed by its own rule whatever STATUS holds: the block keeps going after an error, with the same
effect on the channels, DATA and RESULT (60_exceptions.md R186). -/
def Obligations.BlockGoesOnAfterErrors : Prop :=
  ∀ (w : Word) (s : State) (st : Status), ∃ t u,
    performCommand w s = .next t ∧ performCommand w { s with status := st } = .next u ∧
    u.chans = t.chans ∧ u.data = t.data ∧ u.result = t.result

/-! ## The commands -/

/-- NOP (42_control.md R170): its one word, E_FIELD for any other word of its opcode, and no effect. -/
def Obligations.NopCommand : Prop :=
  (∀ w : Word, w.extractLsb' 28 4 = 0x0#4 →
    decode w = if w.extractLsb' 0 28 = 0 then .ok .nop else .error ⟨.field, w.extractLsb' 24 4⟩) ∧
  (∀ s : State, exec .nop s = .next s)

/-- CLRERR (42_control.md R171): its one word; the error record is cleared and RVALID stays; with ERR = 0 STATUS does
not change; a word of its opcode with another bit set records E_FIELD and clears nothing. -/
def Obligations.ClrerrCommand : Prop :=
  (∀ w : Word, w.extractLsb' 28 4 = 0x8#4 →
    decode w = if w.extractLsb' 0 28 = 0 then .ok .clrerr else .error ⟨.field, w.extractLsb' 24 4⟩) ∧
  (∀ s : State, exec .clrerr s =
    .next { s with status := { s.status with err := false, emult := false, ecode := 0, ech := 0 } }) ∧
  (∀ s : State, s.Inv → s.status.err = false → exec .clrerr s = .next s) ∧
  (∀ (w : Word) (s : State), w.extractLsb' 28 4 = 0x8#4 → w.extractLsb' 0 28 ≠ 0 →
    performCommand w s = .next { s with status := s.status.recordError ⟨.field, w.extractLsb' 24 4⟩ })

/-- INIT (40_table_builder.md R124): its words, its E_CHANNEL, and its effect on every existing channel: the table is
built, the variant bound, the channel disarmed, the stored CRC and everything else unchanged. -/
def Obligations.InitCommand : Prop :=
  (∀ w : Word, w.extractLsb' 28 4 = 0x1#4 →
    decode w = if w.extractLsb' 1 23 = 0
      then .ok (.init (w.extractLsb' 24 4) (if w.getLsbD 0 then .mpeg2 else .normal))
      else .error ⟨.field, w.extractLsb' 24 4⟩) ∧
  (∀ (s : State) (c : BitVec 4) (v : Variant), s.nch ≤ c.toNat →
    exec (.init c v) s = .next { s with status := s.status.recordError ⟨.channel, c⟩ }) ∧
  (∀ (s : State) (c : BitVec 4) (v : Variant) (k : Channel), s.chans[c.toNat]? = some k →
    exec (.init c v) s =
      .next { s with
        chans := s.chans.set c.toNat
          { variant := v, bound := true, armed := false, crc := k.crc, table := buildTable v } })

/-- TREAD (40_table_builder.md R125): its words, its errors, and its effect on a bound channel: RESULT gets the table
entry, RVALID is set, no channel state changes. -/
def Obligations.TreadCommand : Prop :=
  (∀ w : Word, w.extractLsb' 28 4 = 0x7#4 →
    decode w = if w.extractLsb' 8 16 = 0 then .ok (.tread (w.extractLsb' 24 4) (w.extractLsb' 0 8))
      else .error ⟨.field, w.extractLsb' 24 4⟩) ∧
  (∀ (s : State) (c : BitVec 4) (x : Byte), s.nch ≤ c.toNat →
    exec (.tread c x) s = .next { s with status := s.status.recordError ⟨.channel, c⟩ }) ∧
  (∀ (s : State) (c : BitVec 4) (x : Byte) (k : Channel), s.chans[c.toNat]? = some k → k.bound = false →
    exec (.tread c x) s = .next { s with status := s.status.recordError ⟨.unbound, c⟩ }) ∧
  (∀ (s : State) (c : BitVec 4) (x : Byte) (k : Channel), s.chans[c.toNat]? = some k → k.bound = true →
    exec (.tread c x) s =
      .next { s with result := k.table.entry x, status := { s.status with rvalid := true } })

/-- START (41_accumulator.md R144): its words, its errors, and its effect on a bound channel: CRC gets the initial value
of the bound variant and ARMED is set; nothing else changes. -/
def Obligations.StartCommand : Prop :=
  (∀ w : Word, w.extractLsb' 28 4 = 0x2#4 →
    decode w = if w.extractLsb' 0 24 = 0 then .ok (.start (w.extractLsb' 24 4))
      else .error ⟨.field, w.extractLsb' 24 4⟩) ∧
  (∀ (s : State) (c : BitVec 4), s.nch ≤ c.toNat →
    exec (.start c) s = .next { s with status := s.status.recordError ⟨.channel, c⟩ }) ∧
  (∀ (s : State) (c : BitVec 4) (k : Channel), s.chans[c.toNat]? = some k → k.bound = false →
    exec (.start c) s = .next { s with status := s.status.recordError ⟨.unbound, c⟩ }) ∧
  (∀ (s : State) (c : BitVec 4) (k : Channel), s.chans[c.toNat]? = some k → k.bound = true →
    exec (.start c) s =
      .next { s with chans := s.chans.set c.toNat { k with crc := initValue k.variant, armed := true } }) ∧
  (∀ v, initValue v = 0xFFFFFFFF)

/-- UPDB (41_accumulator.md R145): its words, its errors, and its effect on an armed channel: one byte is folded into
CRC; RESULT, STATUS and everything else stay. Its corner case of a zero register and a zero byte, and its example. -/
def Obligations.UpdbCommand : Prop :=
  (∀ w : Word, w.extractLsb' 28 4 = 0x3#4 →
    decode w = if w.extractLsb' 8 16 = 0 then .ok (.updb (w.extractLsb' 24 4) (w.extractLsb' 0 8))
      else .error ⟨.field, w.extractLsb' 24 4⟩) ∧
  (∀ (s : State) (c : BitVec 4) (b : Byte), s.nch ≤ c.toNat →
    exec (.updb c b) s = .next { s with status := s.status.recordError ⟨.channel, c⟩ }) ∧
  (∀ (s : State) (c : BitVec 4) (b : Byte) (k : Channel), s.chans[c.toNat]? = some k → k.bound = false →
    exec (.updb c b) s = .next { s with status := s.status.recordError ⟨.unbound, c⟩ }) ∧
  (∀ (s : State) (c : BitVec 4) (b : Byte) (k : Channel), s.chans[c.toNat]? = some k → k.bound = true →
    k.armed = false → exec (.updb c b) s = .next { s with status := s.status.recordError ⟨.notStarted, c⟩ }) ∧
  (∀ (s : State) (c : BitVec 4) (b : Byte) (k : Channel), s.chans[c.toNat]? = some k → k.bound = true →
    k.armed = true → exec (.updb c b) s =
      .next { s with chans := s.chans.set c.toNat { k with crc := fold k.variant k.table k.crc b } }) ∧
  (∀ v, fold v (buildTable v) 0 0 = 0) ∧ fold .normal (buildTable .normal) 0xFFFFFFFF 0x31 = 0x7C231048

/-- UPDW (41_accumulator.md R146): its words, N above 4 raising E_FIELD, its errors, made also when N = 0, and its effect
on an armed channel: the first N bytes of DATA, `DATA[8k+7:8k]` for k from 0 up, are folded into CRC in order; DATA and
everything else stay. -/
def Obligations.UpdwCommand : Prop :=
  (∀ w : Word, w.extractLsb' 28 4 = 0x4#4 →
    decode w = if w.extractLsb' 3 21 = 0 ∧ (w.extractLsb' 0 3).toNat ≤ 4
      then .ok (.updw (w.extractLsb' 24 4) (w.extractLsb' 0 3))
      else .error ⟨.field, w.extractLsb' 24 4⟩) ∧
  (∀ (s : State) (c : BitVec 4) (n : BitVec 3), n.toNat ≤ 4 → s.nch ≤ c.toNat →
    exec (.updw c n) s = .next { s with status := s.status.recordError ⟨.channel, c⟩ }) ∧
  (∀ (s : State) (c : BitVec 4) (n : BitVec 3) (k : Channel), n.toNat ≤ 4 → s.chans[c.toNat]? = some k →
    k.bound = false → exec (.updw c n) s = .next { s with status := s.status.recordError ⟨.unbound, c⟩ }) ∧
  (∀ (s : State) (c : BitVec 4) (n : BitVec 3) (k : Channel), n.toNat ≤ 4 → s.chans[c.toNat]? = some k →
    k.bound = true → k.armed = false →
    exec (.updw c n) s = .next { s with status := s.status.recordError ⟨.notStarted, c⟩ }) ∧
  (∀ (s : State) (c : BitVec 4) (n : BitVec 3) (k : Channel), n.toNat ≤ 4 → s.chans[c.toNat]? = some k →
    k.bound = true → k.armed = true → exec (.updw c n) s =
      .next { s with
        chans := s.chans.set c.toNat
          { k with
            crc := foldseq k.variant k.table k.crc
              ((List.range n.toNat).map fun j => s.data.extractLsb' (8 * j) 8) } })

/-- UPDM (41_accumulator.md R147): its words, its errors (the lowest mask bit without a channel; then, scanning upwards,
the first selected channel that is not bound or not armed), with no fold on an error, and its effect when every
selected channel is armed: each folds the byte with its own variant and table, every other stays. -/
def Obligations.UpdmCommand : Prop :=
  (∀ w : Word, w.extractLsb' 28 4 = 0x5#4 →
    decode w = if w.extractLsb' 24 4 = 0 then .ok (.updm (w.extractLsb' 8 16) (w.extractLsb' 0 8))
      else .error ⟨.field, w.extractLsb' 24 4⟩) ∧
  (∀ (s : State) (m : BitVec 16) (b : Byte) (j : Nat), m.getLsbD j = true → s.nch ≤ j →
    (∀ l, l < j → m.getLsbD l = true → l < s.nch) →
    exec (.updm m b) s = .next { s with status := s.status.recordError ⟨.channel, BitVec.ofNat 4 j⟩ }) ∧
  (∀ (s : State) (m : BitVec 16) (b : Byte) (j : Nat) (k : Channel), (∀ l, m.getLsbD l = true → l < s.nch) →
    m.getLsbD j = true → s.chans[j]? = some k →
    (∀ l, l < j → m.getLsbD l = true → s.ready l true true = true) → k.bound = false →
    exec (.updm m b) s = .next { s with status := s.status.recordError ⟨.unbound, BitVec.ofNat 4 j⟩ }) ∧
  (∀ (s : State) (m : BitVec 16) (b : Byte) (j : Nat) (k : Channel), (∀ l, m.getLsbD l = true → l < s.nch) →
    m.getLsbD j = true → s.chans[j]? = some k →
    (∀ l, l < j → m.getLsbD l = true → s.ready l true true = true) → k.bound = true → k.armed = false →
    exec (.updm m b) s = .next { s with status := s.status.recordError ⟨.notStarted, BitVec.ofNat 4 j⟩ }) ∧
  (∀ (s : State) (m : BitVec 16) (b : Byte),
    (∀ j, m.getLsbD j = true → ∃ k, s.chans[j]? = some k ∧ k.bound = true ∧ k.armed = true) →
    exec (.updm m b) s =
      .next { s with
        chans := s.chans.mapIdx fun j k =>
          if m.getLsbD j then { k with crc := fold k.variant k.table k.crc b } else k })

/-- FINAL (41_accumulator.md R150): its words, its errors, and its effect on an armed channel: RESULT gets CRC xor the
variant's xor-out mask, RVALID is set, no channel state changes. -/
def Obligations.FinalCommand : Prop :=
  (∀ w : Word, w.extractLsb' 28 4 = 0x6#4 →
    decode w = if w.extractLsb' 0 24 = 0 then .ok (.final (w.extractLsb' 24 4))
      else .error ⟨.field, w.extractLsb' 24 4⟩) ∧
  (∀ (s : State) (c : BitVec 4), s.nch ≤ c.toNat →
    exec (.final c) s = .next { s with status := s.status.recordError ⟨.channel, c⟩ }) ∧
  (∀ (s : State) (c : BitVec 4) (k : Channel), s.chans[c.toNat]? = some k → k.bound = false →
    exec (.final c) s = .next { s with status := s.status.recordError ⟨.unbound, c⟩ }) ∧
  (∀ (s : State) (c : BitVec 4) (k : Channel), s.chans[c.toNat]? = some k → k.bound = true → k.armed = false →
    exec (.final c) s = .next { s with status := s.status.recordError ⟨.notStarted, c⟩ }) ∧
  (∀ (s : State) (c : BitVec 4) (k : Channel), s.chans[c.toNat]? = some k → k.bound = true → k.armed = true →
    exec (.final c) s =
      .next { s with result := k.crc ^^^ xorout k.variant, status := { s.status with rvalid := true } })

/-- The frame of every command: what it leaves unchanged. DATA, the host's events, the last bus response and the number
of channels always stay. RESULT and RVALID stay but for FINAL and TREAD, the error record but for CLRERR and a command
that raises. Of a channel: one that is not selected stays whole; VARIANT, BOUND and every table entry change only by
INIT, ARMED only by INIT and START, CRC only by START and the folds (10_state.md sections 2 to 4). -/
def Obligations.CommandFrame : Prop :=
  ∀ (i : Instr) (s t : State), exec i s = .next t →
    t.data = s.data ∧ t.inputs = s.inputs ∧ t.response = s.response ∧ t.freeDraws = s.freeDraws ∧ t.nch = s.nch ∧
    ((∀ c, i ≠ .final c) → (∀ c x, i ≠ .tread c x) →
      t.result = s.result ∧ t.status.rvalid = s.status.rvalid) ∧
    (i ≠ .clrerr → accepted i s = true →
      t.status.err = s.status.err ∧ t.status.emult = s.status.emult ∧ t.status.ecode = s.status.ecode ∧
      t.status.ech = s.status.ech) ∧
    ∀ c k, s.chans[c]? = some k → ∃ l, t.chans[c]? = some l ∧
      (i.touches c = false → l = k) ∧
      ((∀ d v, i ≠ .init d v) → l.variant = k.variant ∧ l.bound = k.bound ∧
        (∀ x, l.table.entry x = k.table.entry x) ∧ ((∀ d, i ≠ .start d) → l.armed = k.armed)) ∧
      ((∀ d, i ≠ .start d) → (∀ d b, i ≠ .updb d b) → (∀ d n, i ≠ .updw d n) → (∀ m b, i ≠ .updm m b) →
        l.crc = k.crc)

/-- UPDW is the same as one UPDB for each of its bytes, in order (41_accumulator.md section 3; chunk-boundary
independence of section 5, which the spec derives). -/
def Obligations.UpdwIsTheByteCommandsInOrder : Prop :=
  ∀ (s : State) (c : BitVec 4) (n : BitVec 3), accepted (.updw c n) s = true →
    exec (.updw c n) s = execAll ((dataBytes s.data n.toNat).map fun b => .updb c b) s

/-- UPDM is the same as UPDB on each selected channel, in any order (41_accumulator.md section 3, R148, which the spec
derives). -/
def Obligations.UpdmIsUpdbOnEachChannelInAnyOrder : Prop :=
  ∀ (s : State) (m : BitVec 16) (b : Byte) (cs : List (BitVec 4)), accepted (.updm m b) s = true → cs.Nodup →
    (∀ c, c ∈ cs ↔ m.getLsbD c.toNat = true) →
    exec (.updm m b) s = execAll (cs.map fun c => .updb c b) s

/-! ## Channels -/

/-- A command reads and writes nothing of a channel it does not select: the channel stays, and with any other contents
in its place the command does the same to all the rest. UPDM leaves each channel as it was, or, if it selects the
channel, folds the byte into it by that channel's own register, variant and table (10_state.md R29). -/
def Obligations.CommandsIgnoreOtherChannels : Prop :=
  (∀ (i : Instr) (s t : State) (d : Nat) (k : Channel), i.touches d = false → exec i s = .next t →
    t.chans[d]? = s.chans[d]? ∧ exec i (s.setChannel d k) = .next (t.setChannel d k)) ∧
  (∀ (m : BitVec 16) (b : Byte) (s t : State) (d : Nat) (k : Channel), exec (.updm m b) s = .next t →
    s.chans[d]? = some k →
    t.chans[d]? = some k ∨
      m.getLsbD d = true ∧ t.chans[d]? = some { k with crc := fold k.variant k.table k.crc b })

/-- Commands that select no channel in common give the same channel state in either order (20_memory.md section 3, R76,
which the spec derives). -/
def Obligations.CommandsOnDifferentChannelsCommute : Prop :=
  ∀ (i j : Instr) (s : State), (∀ d, ¬ (i.touches d = true ∧ j.touches d = true)) →
    ∃ t u, execAll [i, j] s = .next t ∧ execAll [j, i] s = .next u ∧ t.chans = u.chans

/-! ## The checksum -/

/-- The constants of the two variants, and their VAR codes (10_state.md R20). -/
def Obligations.VariantConstants : Prop :=
  (∀ v : Variant, v = .normal ∨ v = .mpeg2) ∧
  Decode.varBit .normal = 0 ∧ conv .normal = .reflected ∧ poly .normal = 0xEDB88320 ∧
  initValue .normal = 0xFFFFFFFF ∧ xorout .normal = 0xFFFFFFFF ∧
  Decode.varBit .mpeg2 = 1 ∧ conv .mpeg2 = .nonreflected ∧ poly .mpeg2 = 0x04C11DB7 ∧
  initValue .mpeg2 = 0xFFFFFFFF ∧ xorout .mpeg2 = 0x00000000

/-- The laws of the table, for every polynomial (40_table_builder.md section 4, R126, which the spec derives). -/
def Obligations.TableLaws : Prop :=
  ∀ p : Word,
    (buildReflected p).entry 0x00 = 0 ∧ (buildNonreflected p).entry 0x00 = 0 ∧
    (∀ a b : Byte, (buildReflected p).entry (a ^^^ b) = (buildReflected p).entry a ^^^ (buildReflected p).entry b) ∧
    (∀ a b : Byte,
      (buildNonreflected p).entry (a ^^^ b) = (buildNonreflected p).entry a ^^^ (buildNonreflected p).entry b) ∧
    (buildReflected p).entry 0x80 = p ∧ (buildNonreflected p).entry 0x01 = p

/-- Folding a byte through a variant's table is eight bit-steps of polynomial division (41_accumulator.md section 1, R142,
which the spec derives). -/
def Obligations.FoldIsBitwiseDivision : Prop :=
  ∀ (r : Word) (b : Byte),
    (∀ p, fold .normal (buildReflected p) r b = repeatStep (stepReflected p) 8 (r ^^^ b.zeroExtend 32)) ∧
    (∀ p, fold .mpeg2 (buildNonreflected p) r b =
      repeatStep (stepNonreflected p) 8 (r ^^^ (b.zeroExtend 32 <<< 24))) ∧
    fold .normal (buildTable .normal) r b = repeatStep (stepReflected 0xEDB88320) 8 (r ^^^ b.zeroExtend 32) ∧
    fold .mpeg2 (buildTable .mpeg2) r b =
      repeatStep (stepNonreflected 0x04C11DB7) 8 (r ^^^ (b.zeroExtend 32 <<< 24))

/-- Chunk-boundary independence: however a stream is cut into commands, and whatever happens to other channels meanwhile,
the same bytes folded into a channel in order leave the same channel (41_accumulator.md section 5, R152, which the
spec derives). -/
def Obligations.StreamCutsDoNotMatter : Prop :=
  ∀ (c : Nat) (s s' t t' : State) (bs : List Byte) (k : Channel),
    s.chans[c]? = some k → s'.chans[c]? = some k → StreamRun c s bs t → StreamRun c s' bs t' →
    t.chans[c]? = some { k with crc := foldseq k.variant k.table k.crc bs } ∧ t'.chans[c]? = t.chans[c]?

/-- Streaming equals one-shot: START, then any events that fold `bs` into the channel in order and leave it otherwise
alone, then FINAL, puts the checksum of `bs` in RESULT (41_accumulator.md section 5, R153, which the spec derives). -/
def Obligations.StreamingEqualsOneShot : Prop :=
  ∀ (c : BitVec 4) (k : Channel) (s s1 s2 s3 : State) (bs : List Byte),
    s.chans[c.toNat]? = some k → k.bound = true → k.table = buildTable k.variant →
    s.pending = some (.start c) → step s = .next s1 → StreamRun c.toNat s1 bs s2 →
    s2.pending = some (.final c) → step s2 = .next s3 →
    s3.result = crc k.variant bs ∧ s3.status.rvalid = true

/-- Finalize idempotence: two FINAL on a channel with no INIT, START or fold on it between give the same RESULT, and the
first takes nothing from the channel (41_accumulator.md section 5, R151, which the spec derives). -/
def Obligations.FinalizeIsIdempotent : Prop :=
  ∀ (c : BitVec 4) (s s1 s2 s3 : State), accepted (.final c) s = true →
    s.pending = some (.final c) → step s = .next s1 → StreamRun c.toNat s1 [] s2 →
    s2.pending = some (.final c) → step s2 = .next s3 →
    s3.result = s1.result ∧ s1.chans = s.chans

/-- Empty input: START and then FINAL on a bound channel give the initial value xor the xor-out mask (41_accumulator.md
section 5, R154, which the spec derives). -/
def Obligations.EmptyStreamChecksum : Prop :=
  (∀ (s : State) (c : BitVec 4) (k : Channel), s.chans[c.toNat]? = some k → k.bound = true →
    ∃ t, execAll [.start c, .final c] s = .next t ∧ t.result = initValue k.variant ^^^ xorout k.variant ∧
      t.result = crc k.variant []) ∧
  crc .normal [] = 0x00000000 ∧ crc .mpeg2 [] = 0xFFFFFFFF

/-! ## The host's macros -/

/-- COMPUTE on a bound channel puts the checksum of its bytes in RESULT, with no error, and leaves DATA and every other
channel alone (30_encoding.md section 5, 41_accumulator.md section 5). -/
def Obligations.ComputeMacroGivesTheChecksum : Prop :=
  ∀ (s : State) (c : BitVec 4) (k : Channel) (bs : List Byte) (rest : List HostEvent),
    s.chans[c.toNat]? = some k → k.bound = true → k.table = buildTable k.variant →
    ∃ t : State, Host.Core.run core (bs.length + 2) { s with inputs := compute c bs ++ rest } = .next t ∧
      t.result = crc k.variant bs ∧ t.status = { s.status with rvalid := true } ∧ t.inputs = rest ∧
      t.data = s.data ∧ ∀ d, d ≠ c.toNat → t.chans[d]? = s.chans[d]?

/-- UPDSPAN on an armed channel folds its bytes in order, as one UPDB for each would, with no error, and leaves RESULT and
every other channel alone (30_encoding.md section 5, 20_memory.md section 2). -/
def Obligations.UpdspanMacroFoldsItsBytes : Prop :=
  ∀ (s : State) (c : BitVec 4) (k : Channel) (bs : List Byte) (rest : List HostEvent),
    s.chans[c.toNat]? = some k → k.bound = true → k.armed = true →
    ∃ t : State,
      Host.Core.run core (updspan c bs).length { s with inputs := updspan c bs ++ rest } = .next t ∧
      t.chans = s.chans.set c.toNat { k with crc := foldseq k.variant k.table k.crc bs } ∧
      t.result = s.result ∧ t.status = s.status ∧ t.inputs = rest

/-- BOOT on a block of at least two channels binds channel 0 to NORMAL and channel 1 to MPEG2, with no error
(30_encoding.md section 5, 70_reset_and_hazards.md section 2). -/
def Obligations.BootMacroBindsBothVariants : Prop :=
  ∀ (s : State) (rest : List HostEvent), 2 ≤ s.nch →
    ∃ (t : State) (k l : Channel), Host.Core.run core 2 { s with inputs := boot ++ rest } = .next t ∧
      t.chans[0]? = some k ∧ t.chans[1]? = some l ∧
      k.bound = true ∧ k.armed = false ∧ k.variant = .normal ∧ k.table = buildTable .normal ∧
      l.bound = true ∧ l.armed = false ∧ l.variant = .mpeg2 ∧ l.table = buildTable .mpeg2 ∧
      t.status = s.status ∧ t.inputs = rest

/-- The host's rendering of a result: `0x`, then exactly 8 upper-case hexadecimal digits that read back as the result
(41_accumulator.md R156). -/
def Obligations.RenderingShowsTheResult : Prop :=
  ∀ v : Word, ∃ ds : List (BitVec 4), ds.length = 8 ∧
    renderResult v = '0' :: 'x' :: (ds.map fun d => ("0123456789ABCDEF".toList).getD d.toNat ' ') ∧
    ds.foldl (fun n d => 16 * n + d.toNat) 0 = v.toNat

/-! ## The model's own choice on an ill-formed instruction -/

/-- Log entry 12, the model's own reading and no rule's clause: `exec` of UPDW with N above 4, which decoding never gives,
records E_FIELD with the CH field, which is what the block does when the host writes its command word
(41_accumulator.md section 3). -/
def Obligations.IllFormedUpdwActsAsItsWord : Prop :=
  ∀ (s : State) (c : BitVec 4) (n : BitVec 3), 4 < n.toNat →
    exec (.updw c n) s = .next { s with status := s.status.recordError ⟨.field, c⟩ } ∧
    performCommand (encode (.updw c n)) s = exec (.updw c n) s
end

