-- ==== Sys2Proof/Laws/State.lean ====
section
/-! SUPPORT. One lemma for each field under each update of State, Status and Channel, so that no proof unfolds a record
update. -/

namespace Sys2Proof.Machine

variable (s : State) (t : Status) (k : Channel)

@[simp] theorem State.setChannel_chans (c : Nat) (l : Channel) : (s.setChannel c l).chans = s.chans.set c l := rfl
@[simp] theorem State.setChannel_data (c : Nat) (l : Channel) : (s.setChannel c l).data = s.data := rfl
@[simp] theorem State.setChannel_result (c : Nat) (l : Channel) : (s.setChannel c l).result = s.result := rfl
@[simp] theorem State.setChannel_status (c : Nat) (l : Channel) : (s.setChannel c l).status = s.status := rfl
@[simp] theorem State.setChannel_inputs (c : Nat) (l : Channel) : (s.setChannel c l).inputs = s.inputs := rfl
@[simp] theorem State.setChannel_response (c : Nat) (l : Channel) : (s.setChannel c l).response = s.response := rfl
@[simp] theorem State.setChannel_freeDraws (c : Nat) (l : Channel) : (s.setChannel c l).freeDraws = s.freeDraws := rfl

@[simp] theorem State.setResult_chans (v : Word) : (s.setResult v).chans = s.chans := rfl
@[simp] theorem State.setResult_data (v : Word) : (s.setResult v).data = s.data := rfl
@[simp] theorem State.setResult_result (v : Word) : (s.setResult v).result = v := rfl
@[simp] theorem State.setResult_status (v : Word) : (s.setResult v).status = s.status.setResultValid := rfl
@[simp] theorem State.setResult_inputs (v : Word) : (s.setResult v).inputs = s.inputs := rfl
@[simp] theorem State.setResult_response (v : Word) : (s.setResult v).response = s.response := rfl
@[simp] theorem State.setResult_freeDraws (v : Word) : (s.setResult v).freeDraws = s.freeDraws := rfl

@[simp] theorem State.clearErrors_chans : (s.clearErrors).chans = s.chans := rfl
@[simp] theorem State.clearErrors_data : (s.clearErrors).data = s.data := rfl
@[simp] theorem State.clearErrors_result : (s.clearErrors).result = s.result := rfl
@[simp] theorem State.clearErrors_status : (s.clearErrors).status = s.status.clearErrors := rfl
@[simp] theorem State.clearErrors_inputs : (s.clearErrors).inputs = s.inputs := rfl
@[simp] theorem State.clearErrors_response : (s.clearErrors).response = s.response := rfl
@[simp] theorem State.clearErrors_freeDraws : (s.clearErrors).freeDraws = s.freeDraws := rfl

@[simp] theorem State.takeCmdError_chans (e : CmdError) : (s.takeCmdError e).chans = s.chans := rfl
@[simp] theorem State.takeCmdError_data (e : CmdError) : (s.takeCmdError e).data = s.data := rfl
@[simp] theorem State.takeCmdError_result (e : CmdError) : (s.takeCmdError e).result = s.result := rfl
@[simp] theorem State.takeCmdError_status (e : CmdError) : (s.takeCmdError e).status = s.status.recordError e := rfl
@[simp] theorem State.takeCmdError_inputs (e : CmdError) : (s.takeCmdError e).inputs = s.inputs := rfl
@[simp] theorem State.takeCmdError_response (e : CmdError) : (s.takeCmdError e).response = s.response := rfl
@[simp] theorem State.takeCmdError_freeDraws (e : CmdError) : (s.takeCmdError e).freeDraws = s.freeDraws := rfl

@[simp] theorem State.foldSelected_chans (m : BitVec 16) (b : Byte) : (s.foldSelected m b).chans = s.chans.mapIdx fun j l => if selects m j then l.absorb [b] else l := rfl
@[simp] theorem State.foldSelected_data (m : BitVec 16) (b : Byte) : (s.foldSelected m b).data = s.data := rfl
@[simp] theorem State.foldSelected_result (m : BitVec 16) (b : Byte) : (s.foldSelected m b).result = s.result := rfl
@[simp] theorem State.foldSelected_status (m : BitVec 16) (b : Byte) : (s.foldSelected m b).status = s.status := rfl
@[simp] theorem State.foldSelected_inputs (m : BitVec 16) (b : Byte) : (s.foldSelected m b).inputs = s.inputs := rfl
@[simp] theorem State.foldSelected_response (m : BitVec 16) (b : Byte) : (s.foldSelected m b).response = s.response := rfl
@[simp] theorem State.foldSelected_freeDraws (m : BitVec 16) (b : Byte) : (s.foldSelected m b).freeDraws = s.freeDraws := rfl

@[simp] theorem State.resetBlock_chans : (s.resetBlock).chans = s.chans.mapIdx fun c _ =>
      Channel.atReset (Config.unspecifiedCrc s.freeDraws c) (tableOf (Config.unspecifiedEntry s.freeDraws c)) := rfl
@[simp] theorem State.resetBlock_data : (s.resetBlock).data = 0 := rfl
@[simp] theorem State.resetBlock_result : (s.resetBlock).result = 0 := rfl
@[simp] theorem State.resetBlock_status : (s.resetBlock).status = Status.atReset := rfl
@[simp] theorem State.resetBlock_inputs : (s.resetBlock).inputs = s.inputs := rfl
@[simp] theorem State.resetBlock_response : (s.resetBlock).response = none := rfl
@[simp] theorem State.resetBlock_freeDraws : (s.resetBlock).freeDraws = s.freeDraws + 1 := rfl

@[simp] theorem State.afterBusError_chans : (s.afterBusError).chans = s.chans := rfl
@[simp] theorem State.afterBusError_data : (s.afterBusError).data = s.data := rfl
@[simp] theorem State.afterBusError_result : (s.afterBusError).result = s.result := rfl
@[simp] theorem State.afterBusError_status : (s.afterBusError).status = s.status := rfl
@[simp] theorem State.afterBusError_inputs : (s.afterBusError).inputs = s.inputs.tail := rfl
@[simp] theorem State.afterBusError_response : (s.afterBusError).response = some .error := rfl
@[simp] theorem State.afterBusError_freeDraws : (s.afterBusError).freeDraws = s.freeDraws := rfl

@[simp] theorem State.withFetchWord_chans (n w : Nat) : (s.withFetchWord n w).chans = s.chans := rfl
@[simp] theorem State.withFetchWord_data (n w : Nat) : (s.withFetchWord n w).data = s.data := rfl
@[simp] theorem State.withFetchWord_result (n w : Nat) : (s.withFetchWord n w).result = s.result := rfl
@[simp] theorem State.withFetchWord_status (n w : Nat) : (s.withFetchWord n w).status = s.status := rfl
@[simp] theorem State.withFetchWord_inputs (n w : Nat) : (s.withFetchWord n w).inputs = .transfer (.write 0x00 32 0xF (Decode.tableWord n w)) :: s.inputs := rfl
@[simp] theorem State.withFetchWord_response (n w : Nat) : (s.withFetchWord n w).response = s.response := rfl
@[simp] theorem State.withFetchWord_freeDraws (n w : Nat) : (s.withFetchWord n w).freeDraws = s.freeDraws := rfl

@[simp] theorem Status.clearErrors_err : (t.clearErrors).err = false := rfl
@[simp] theorem Status.clearErrors_emult : (t.clearErrors).emult = false := rfl
@[simp] theorem Status.clearErrors_ecode : (t.clearErrors).ecode = 0 := rfl
@[simp] theorem Status.clearErrors_ech : (t.clearErrors).ech = 0 := rfl
@[simp] theorem Status.clearErrors_rvalid : (t.clearErrors).rvalid = t.rvalid := rfl

@[simp] theorem Status.setResultValid_err : (t.setResultValid).err = t.err := rfl
@[simp] theorem Status.setResultValid_emult : (t.setResultValid).emult = t.emult := rfl
@[simp] theorem Status.setResultValid_ecode : (t.setResultValid).ecode = t.ecode := rfl
@[simp] theorem Status.setResultValid_ech : (t.setResultValid).ech = t.ech := rfl
@[simp] theorem Status.setResultValid_rvalid : (t.setResultValid).rvalid = true := rfl

@[simp] theorem Status.atReset_err : Status.atReset.err = false := rfl
@[simp] theorem Status.atReset_emult : Status.atReset.emult = false := rfl
@[simp] theorem Status.atReset_ecode : Status.atReset.ecode = 0 := rfl
@[simp] theorem Status.atReset_ech : Status.atReset.ech = 0 := rfl
@[simp] theorem Status.atReset_rvalid : Status.atReset.rvalid = false := rfl

/-- Recording an error never lowers ERR (60_exceptions.md R183). -/
@[simp] theorem Status.recordError_err (e : CmdError) : (t.recordError e).err = true := by
  unfold Status.recordError; split <;> simp_all

@[simp] theorem Status.recordError_emult (e : CmdError) :
    (t.recordError e).emult = (t.err || t.emult) := by
  unfold Status.recordError; split <;> simp_all

@[simp] theorem Status.recordError_ecode (e : CmdError) :
    (t.recordError e).ecode = (if t.err then t.ecode else errNumber e.code) := by
  unfold Status.recordError; split <;> simp_all

@[simp] theorem Status.recordError_ech (e : CmdError) :
    (t.recordError e).ech = (if t.err then t.ech else e.ch) := by
  unfold Status.recordError; split <;> simp_all

@[simp] theorem Status.recordError_rvalid (e : CmdError) :
    (t.recordError e).rvalid = t.rvalid := by
  unfold Status.recordError; split <;> simp_all

@[simp] theorem Channel.absorb_variant (bs : List Byte) : (k.absorb bs).variant = k.variant := rfl
@[simp] theorem Channel.absorb_bound (bs : List Byte) : (k.absorb bs).bound = k.bound := rfl
@[simp] theorem Channel.absorb_armed (bs : List Byte) : (k.absorb bs).armed = k.armed := rfl
@[simp] theorem Channel.absorb_table (bs : List Byte) : (k.absorb bs).table = k.table := rfl
@[simp] theorem Channel.absorb_crc (bs : List Byte) :
    (k.absorb bs).crc = foldseq k.variant k.table k.crc bs := rfl

@[simp] theorem Channel.atReset_variant (r : Word) (T : Table) : (Channel.atReset r T).variant = .normal := rfl
@[simp] theorem Channel.atReset_bound (r : Word) (T : Table) : (Channel.atReset r T).bound = false := rfl
@[simp] theorem Channel.atReset_armed (r : Word) (T : Table) : (Channel.atReset r T).armed = false := rfl
@[simp] theorem Channel.atReset_crc (r : Word) (T : Table) : (Channel.atReset r T).crc = r := rfl
@[simp] theorem Channel.atReset_table (r : Word) (T : Table) : (Channel.atReset r T).table = T := rfl

/-- The block after power-up, field by field (10_state.md R43). -/
@[simp] theorem State.powerUp_chans (n : Config.ChannelCount) :
    (State.powerUp n).chans = List.replicate n.val (Channel.atReset 0 (Vector.replicate 256 0)) := rfl
@[simp] theorem State.powerUp_data (n : Config.ChannelCount) : (State.powerUp n).data = 0 := rfl
@[simp] theorem State.powerUp_result (n : Config.ChannelCount) : (State.powerUp n).result = 0 := rfl
@[simp] theorem State.powerUp_status (n : Config.ChannelCount) : (State.powerUp n).status = Status.atReset := rfl
@[simp] theorem State.powerUp_inputs (n : Config.ChannelCount) : (State.powerUp n).inputs = [] := rfl
@[simp] theorem State.powerUp_response (n : Config.ChannelCount) : (State.powerUp n).response = none := rfl
@[simp] theorem State.powerUp_freeDraws (n : Config.ChannelCount) : (State.powerUp n).freeDraws = 0 := rfl
@[simp] theorem State.powerUp_nch (n : Config.ChannelCount) : (State.powerUp n).nch = n.val := by simp [State.nch]
theorem State.reset_eq_powerUp : State.reset = State.powerUp Config.defaultCount := rfl

/-- No operation changes the number of channels (10_state.md R41). -/
@[simp] theorem State.setChannel_nch (c : Nat) (l : Channel) : (s.setChannel c l).nch = s.nch := by simp [State.nch]
@[simp] theorem State.setResult_nch (v : Word) : (s.setResult v).nch = s.nch := rfl
@[simp] theorem State.clearErrors_nch : s.clearErrors.nch = s.nch := rfl
@[simp] theorem State.takeCmdError_nch (e : CmdError) : (s.takeCmdError e).nch = s.nch := rfl
@[simp] theorem State.foldSelected_nch (m : BitVec 16) (b : Byte) : (s.foldSelected m b).nch = s.nch := by
  simp [State.nch]
@[simp] theorem State.resetBlock_nch : s.resetBlock.nch = s.nch := by simp [State.nch]

end Sys2Proof.Machine
end

