-- ==== Sys2Proof/Laws/Crc.lean ====
section
/-! SUPPORT. The spec lemmas of the table and the fold (40_table_builder.md, 41_accumulator.md). -/

namespace Sys2Proof.Machine

/-- The entry a table was made with (10_state.md R24). -/
@[simp] theorem tableOf_entry (f : Byte → Word) (i : Byte) : (tableOf f).entry i = f i := by
  simp [tableOf, Table.entry]

theorem buildReflected_entry (p : Word) (i : Byte) :
    (buildReflected p).entry i = repeatStep (stepReflected p) 8 (i.zeroExtend 32) := by
  simp [buildReflected]

theorem buildNonreflected_entry (p : Word) (i : Byte) :
    (buildNonreflected p).entry i = repeatStep (stepNonreflected p) 8 (i.zeroExtend 32 <<< 24) := by
  simp [buildNonreflected]

@[simp] theorem foldseq_nil (v : Variant) (T : Table) (r : Word) : foldseq v T r [] = r := rfl

@[simp] theorem foldseq_cons (v : Variant) (T : Table) (r : Word) (b : Byte) (bs : List Byte) :
    foldseq v T r (b :: bs) = foldseq v T (fold v T r b) bs := rfl

/-- Where a stream is cut does not matter (41_accumulator.md R152). -/
@[simp] theorem foldseq_append (v : Variant) (T : Table) (r : Word) (xs ys : List Byte) :
    foldseq v T r (xs ++ ys) = foldseq v T (foldseq v T r xs) ys := by
  induction xs generalizing r with
  | nil => rfl
  | cons x xs ih => exact ih _

theorem absorb_append (k : Channel) (xs ys : List Byte) : k.absorb (xs ++ ys) = (k.absorb xs).absorb ys := by
  simp [Channel.absorb]

@[simp] theorem absorb_nil (k : Channel) : k.absorb [] = k := rfl

end Sys2Proof.Machine
end

