-- ==== Sys2Proof/Laws/Decode.lean ====
section
/-! SUPPORT. The opcode map row by row, and the fields of an encoded word (30_encoding.md R92, R96). -/

namespace Sys2Proof

/-- A reserved opcode has no row (30_encoding.md R98). -/
theorem rowOf_reserved {o : BitVec 4} (h : 9 ≤ o.toNat) : Decode.rowOf o = none := by
  have key : ∀ o : BitVec 4, 9 ≤ o.toNat → (Decode.rowOf o).isNone = true := by decide
  simpa using key o h

/-- Every defined opcode has its row (30_encoding.md R96). -/
theorem rowOf_opcode (i : Instr) : ∃ row, Decode.rowOf i.opcode = some row ∧ row.op = i.opcode := by
  cases i <;> exact ⟨_, rfl, rfl⟩

@[simp] theorem variantOf_varBit (v : Variant) : Decode.variantOf (Decode.varBit v) = v := by
  cases v <;> rfl

@[simp] theorem varBit_variantOf (x : BitVec 1) : Decode.varBit (Decode.variantOf x) = x := by
  revert x
  decide

/-- Bit `j` of a placed field. -/
@[simp] theorem place_getLsbD {width : Nat} (v : BitVec width) (lo j : Nat) :
    (Decode.place v lo).getLsbD j = (decide (j < 32) && decide (lo ≤ j) && v.getLsbD (j - lo)) := by
  by_cases h1 : j < 32 <;> by_cases h2 : lo ≤ j
  · simp [Decode.place, h1, h2, show ¬ j < lo by omega]
  · simp [Decode.place, h1, h2, show j < lo by omega]
  · simp [Decode.place, h1]
  · simp [Decode.place, h1]

/-- Bit `j` of a field of a word. -/
@[simp] theorem slice_getLsbD (w : Word) (lo width j : Nat) :
    (Decode.slice w lo width).getLsbD j = (decide (j < width) && w.getLsbD (lo + j)) := by
  simp [Decode.slice]

/-- The opcode field of a command word is its instruction's opcode (30_encoding.md R91, R96). -/
@[simp] theorem op_encode (i : Instr) : Decode.op (encode i) = i.opcode := by
  cases i <;>
    · apply BitVec.eq_of_getLsbD_eq
      intro j hj
      simp only [Decode.op, slice_getLsbD, encode, BitVec.getLsbD_or, place_getLsbD]
      interval_cases j <;> simp [Instr.opcode]

end Sys2Proof
end

