-- ==== Sys2Proof/Laws/Ops.lean ====
section
/-! SUPPORT. The spec lemmas of the shared operations: what each check answers (60_exceptions.md R182), and that a
command always ends in a next state (60_exceptions.md R181, R186). -/

namespace Sys2Proof.Machine

variable {s : State} {c : BitVec 4} {k : Channel}

@[simp] theorem finish_ok (s t : State) : s.finish (.ok t) = .next t := rfl

@[simp] theorem finish_error (s : State) (e : CmdError) : s.finish (.error e) = .next (s.takeCmdError e) := rfl

/-- A finished command is a next state, whatever its checks answered. -/
theorem finish_total (s : State) (r : Except CmdError State) : ∃ t, s.finish r = .next t := by
  cases r <;> simp

/-- What a finished command is, in its two cases. -/
theorem finish_cases {s t : State} {r : Except CmdError State} (h : s.finish r = .next t) :
    r = .ok t ∨ ∃ e, r = .error e ∧ t = s.takeCmdError e := by
  cases r with
  | ok u => simp at h; exact .inl (by rw [h])
  | error e => simp at h; exact .inr ⟨e, rfl, h.symm⟩

theorem requireChannel_none (h : s.chans[c.toNat]? = none) : s.requireChannel c = .error ⟨.channel, c⟩ := by
  simp [State.requireChannel, State.channel?, h]

theorem requireChannel_some (h : s.chans[c.toNat]? = some k) : s.requireChannel c = .ok k := by
  simp [State.requireChannel, State.channel?, h]

theorem requireBound_none (h : s.chans[c.toNat]? = none) : s.requireBound c = .error ⟨.channel, c⟩ := by
  simp [State.requireBound, requireChannel_none h]

theorem requireBound_some (h : s.chans[c.toNat]? = some k) :
    s.requireBound c = if k.bound then .ok k else .error ⟨.unbound, c⟩ := by
  simp [State.requireBound, requireChannel_some h]

theorem requireArmed_none (h : s.chans[c.toNat]? = none) : s.requireArmed c = .error ⟨.channel, c⟩ := by
  simp [State.requireArmed, requireBound_none h]

theorem requireArmed_some (h : s.chans[c.toNat]? = some k) :
    s.requireArmed c =
      if k.bound then (if k.armed then .ok k else .error ⟨.notStarted, c⟩) else .error ⟨.unbound, c⟩ := by
  rw [State.requireArmed, requireBound_some h]
  by_cases hb : k.bound <;> simp [hb]

/-- The lowest channel of the mask that the block does not have, if there is one. -/
theorem lowestAbsent_some {m : BitVec 16} {n j : Nat} :
    lowestAbsent m n = some j ↔
      m.getLsbD j = true ∧ n ≤ j ∧ ∀ l, l < j → m.getLsbD l = true → l < n := by
  unfold lowestAbsent selects
  rw [List.find?_range_eq_some]
  simp only [Bool.and_eq_true, decide_eq_true_eq, List.mem_range, Bool.not_eq_true', Bool.and_eq_false_iff,
    decide_eq_false_iff_not, Nat.not_le]
  constructor
  · rintro ⟨⟨h1, h2⟩, _, h3⟩
    refine ⟨h1, h2, fun l hl hm => ?_⟩
    rcases h3 l hl with h | h
    · simp [h] at hm
    · exact h
  · rintro ⟨h1, h2, h3⟩
    refine ⟨⟨h1, h2⟩, BitVec.lt_of_getLsbD h1, fun l hl => ?_⟩
    by_cases hm : m.getLsbD l
    · exact .inr (h3 l hl hm)
    · exact .inl (by simpa using hm)

theorem lowestAbsent_none {m : BitVec 16} {n : Nat} :
    lowestAbsent m n = none ↔ ∀ j, m.getLsbD j = true → j < n := by
  unfold lowestAbsent selects
  rw [List.find?_eq_none]
  constructor
  · intro h j hj
    have := h j (List.mem_range.2 (BitVec.lt_of_getLsbD hj))
    simpa [hj] using this
  · intro h j _
    by_cases hj : m.getLsbD j
    · simp [hj, h j hj]
    · simp [hj]

/-- The scan of UPDM finds nothing exactly when every selected channel from `n` on is bound and armed. -/
theorem scanSelected_none {m : BitVec 16} {n : Nat} {ks : List Channel} :
    scanSelected m n ks = none ↔
      ∀ j l, ks[j]? = some l → m.getLsbD (n + j) = true → l.bound = true ∧ l.armed = true := by
  induction ks generalizing n with
  | nil => simp [scanSelected]
  | cons l ks ih =>
    have key : (∀ j l', (l :: ks)[j]? = some l' → m.getLsbD (n + j) = true → l'.bound = true ∧ l'.armed = true) ↔
        (m.getLsbD n = true → l.bound = true ∧ l.armed = true) ∧
        ∀ j l', ks[j]? = some l' → m.getLsbD (n + 1 + j) = true → l'.bound = true ∧ l'.armed = true := by
      constructor
      · intro h
        exact ⟨h 0 l rfl, fun j l' hj hm => h (j + 1) l' (by simpa using hj) (by rwa [← Nat.add_right_comm] at hm)⟩
      · rintro ⟨h0, h1⟩ j l' hj hm
        cases j with
        | zero => simp at hj; subst hj; exact h0 hm
        | succ j => exact h1 j l' (by simpa using hj) (by rwa [Nat.add_right_comm])
    rw [key, ← ih, scanSelected]
    unfold selects
    cases hm : m.getLsbD n <;> cases hb : l.bound <;> cases ha : l.armed <;> simp

/-- What the scan of UPDM reports: the first selected channel that is not bound and armed, and its own first failing
check. -/
theorem scanSelected_some {m : BitVec 16} {n : Nat} {ks : List Channel} {e : CmdError}
    (h : scanSelected m n ks = some e) :
    ∃ j l, ks[j]? = some l ∧ m.getLsbD (n + j) = true ∧
      (∀ j' l', j' < j → ks[j']? = some l' → m.getLsbD (n + j') = true → l'.bound = true ∧ l'.armed = true) ∧
      (l.bound = false ∧ e = ⟨.unbound, BitVec.ofNat 4 (n + j)⟩ ∨
        l.bound = true ∧ l.armed = false ∧ e = ⟨.notStarted, BitVec.ofNat 4 (n + j)⟩) := by
  induction ks generalizing n with
  | nil => simp [scanSelected] at h
  | cons l ks ih =>
    rw [scanSelected] at h
    unfold selects at h
    split at h
    · rename_i h1
      simp only [Bool.and_eq_true, Bool.not_eq_true'] at h1
      exact ⟨0, l, rfl, h1.1, by simp, .inl ⟨h1.2, by simpa using h.symm⟩⟩
    · rename_i h1
      split at h
      · rename_i h2
        simp only [Bool.and_eq_true, Bool.not_eq_true'] at h1 h2
        refine ⟨0, l, rfl, h2.1, by simp, .inr ⟨?_, h2.2, by simpa using h.symm⟩⟩
        simpa [h2.1] using h1
      · rename_i h2
        obtain ⟨j, l', hj, hm, hlow, he⟩ := ih h
        refine ⟨j + 1, l', by simpa using hj, by rwa [← Nat.add_right_comm, Nat.add_assoc] at hm,
          fun j' l'' hj' hl hm' => ?_, by rwa [← Nat.add_assoc, Nat.add_right_comm]⟩
        cases j' with
        | zero =>
          simp at hl hm' h1 h2
          subst hl
          exact ⟨h1 hm', h2 hm'⟩
        | succ j' =>
          exact hlow j' l'' (by omega) (by simpa using hl) (by rwa [Nat.add_right_comm])

/-- UPDM passes its checks exactly when every channel it selects exists, is bound and is armed. -/
theorem requireSelected_ok {s : State} {m : BitVec 16} :
    s.requireSelected m = .ok () ↔
      ∀ j, m.getLsbD j = true → ∃ l, s.chans[j]? = some l ∧ l.bound = true ∧ l.armed = true := by
  have hex : (∀ j, m.getLsbD j = true → ∃ l, s.chans[j]? = some l ∧ l.bound = true ∧ l.armed = true) ↔
      lowestAbsent m s.nch = none ∧ scanSelected m 0 s.chans = none := by
    rw [lowestAbsent_none, scanSelected_none]
    constructor
    · intro h
      refine ⟨fun j hj => ?_, fun j l hl hm => ?_⟩
      · obtain ⟨l, hl, _⟩ := h j hj
        exact (List.getElem?_eq_some_iff.1 hl).1
      · obtain ⟨l', hl', hb⟩ := h j (by simpa using hm)
        rw [hl] at hl'
        cases hl'
        exact hb
    · rintro ⟨h1, h2⟩ j hj
      have hlt := h1 j hj
      exact ⟨s.chans[j], List.getElem?_eq_getElem hlt,
        h2 j _ (List.getElem?_eq_getElem hlt) (by simpa using hj)⟩
  rw [hex, State.requireSelected]
  cases h1 : lowestAbsent m s.nch with
  | some j => simp
  | none => cases h2 : scanSelected m 0 s.chans <;> simp

end Sys2Proof.Machine
end

