-- ==== Sys2Proof/Laws/Exec.lean ====
section
/-! SUPPORT. What a command does, said once: it ends in a next state that is its effect, or the error procedure
(00_scope.md R16, 60_exceptions.md R181, R183). -/

namespace Sys2Proof.Machine

/-- The effect of each command on a state that passes its checks. -/
inductive Effect (s : State) : Instr → State → Prop where
  | nop : Effect s .nop s
  | init {c : BitVec 4} {k : Channel} (v : Variant) (h : s.chans[c.toNat]? = some k) :
      Effect s (.init c v)
        (s.setChannel c.toNat { k with table := buildTable v, variant := v, bound := true, armed := false })
  | start {c : BitVec 4} {k : Channel} (h : s.chans[c.toNat]? = some k) (hb : k.bound = true) :
      Effect s (.start c) (s.setChannel c.toNat { k with crc := initValue k.variant, armed := true })
  | updb {c : BitVec 4} {k : Channel} (b : Byte) (h : s.chans[c.toNat]? = some k) (hb : k.bound = true)
      (ha : k.armed = true) : Effect s (.updb c b) (s.setChannel c.toNat (k.absorb [b]))
  | updw {c : BitVec 4} {k : Channel} {n : BitVec 3} (hn : n.toNat ≤ 4) (h : s.chans[c.toNat]? = some k)
      (hb : k.bound = true) (ha : k.armed = true) :
      Effect s (.updw c n) (s.setChannel c.toNat (k.absorb (dataBytes s.data n.toNat)))
  | updm {m : BitVec 16} (b : Byte)
      (h : ∀ j, m.getLsbD j = true → ∃ k, s.chans[j]? = some k ∧ k.bound = true ∧ k.armed = true) :
      Effect s (.updm m b) (s.foldSelected m b)
  | final {c : BitVec 4} {k : Channel} (h : s.chans[c.toNat]? = some k) (hb : k.bound = true)
      (ha : k.armed = true) : Effect s (.final c) (s.setResult (k.crc ^^^ xorout k.variant))
  | tread {c : BitVec 4} {k : Channel} (x : Byte) (h : s.chans[c.toNat]? = some k) (hb : k.bound = true) :
      Effect s (.tread c x) (s.setResult (k.table.entry x))
  | clrerr : Effect s .clrerr s.clearErrors

/-- What the channel recorded with an error satisfies (60_exceptions.md R184). -/
structure ErrorFits (s : State) (e : CmdError) : Prop where
  decoded : e.code ≠ .opcode
  absent  : e.code = .channel → s.nch ≤ e.ch.toNat
  present : e.code = .unbound ∨ e.code = .notStarted → e.ch.toNat < s.nch

theorem errorFits_channel {s : State} {c : BitVec 4} (h : s.chans[c.toNat]? = none) :
    ErrorFits s ⟨.channel, c⟩ :=
  ⟨by simp, fun _ => by simpa [State.nch] using h, by simp⟩

theorem errorFits_present {s : State} {c : BitVec 4} {k : Channel} (h : s.chans[c.toNat]? = some k)
    {e : ErrCode} (ho : e ≠ .opcode) (he : e ≠ .channel) : ErrorFits s ⟨e, c⟩ :=
  ⟨ho, fun h' => absurd h' he, fun _ => (List.getElem?_eq_some_iff.1 h).1⟩

/-- A command that needs a channel: its effect when the check answers one, else the error procedure. -/
theorem requireArmed_cases (s : State) (c : BitVec 4) :
    (∃ k, s.chans[c.toNat]? = some k ∧ k.bound = true ∧ k.armed = true ∧ s.requireArmed c = .ok k) ∨
      ∃ e, s.requireArmed c = .error e ∧ ErrorFits s e ∧
        ¬ ∃ k, s.chans[c.toNat]? = some k ∧ k.bound = true ∧ k.armed = true := by
  cases h : s.chans[c.toNat]? with
  | none => exact .inr ⟨_, requireArmed_none h, errorFits_channel h, by simp⟩
  | some k =>
    have hr := requireArmed_some h
    cases hb : k.bound with
    | false => exact .inr ⟨⟨.unbound, c⟩, by simp [hr, hb], errorFits_present h (by simp) (by simp), by simp [hb]⟩
    | true =>
      cases ha : k.armed with
      | false => exact .inr ⟨⟨.notStarted, c⟩, by simp [hr, hb, ha], errorFits_present h (by simp) (by simp), by simp [ha]⟩
      | true => exact .inl ⟨k, rfl, hb, ha, by simp [hr, hb, ha]⟩

theorem requireBound_cases (s : State) (c : BitVec 4) :
    (∃ k, s.chans[c.toNat]? = some k ∧ k.bound = true ∧ s.requireBound c = .ok k) ∨
      ∃ e, s.requireBound c = .error e ∧ ErrorFits s e ∧ ¬ ∃ k, s.chans[c.toNat]? = some k ∧ k.bound = true := by
  cases h : s.chans[c.toNat]? with
  | none => exact .inr ⟨_, requireBound_none h, errorFits_channel h, by simp⟩
  | some k =>
    have hr := requireBound_some h
    cases hb : k.bound with
    | false => exact .inr ⟨⟨.unbound, c⟩, by simp [hr, hb], errorFits_present h (by simp) (by simp), by simp [hb]⟩
    | true => exact .inl ⟨k, rfl, hb, by simp [hr, hb]⟩

theorem requireSelected_error {s : State} {m : BitVec 16} {e : CmdError} (h : s.requireSelected m = .error e) :
    ErrorFits s e ∧ ¬ ∀ j, m.getLsbD j = true → ∃ k, s.chans[j]? = some k ∧ k.bound = true ∧ k.armed = true := by
  refine ⟨?_, fun hall => by rw [requireSelected_ok.2 hall] at h; cases h⟩
  rw [State.requireSelected] at h
  split at h
  · rename_i j hj
    cases h
    obtain ⟨hm, hle, _⟩ := lowestAbsent_some.1 hj
    have : j < 16 := BitVec.lt_of_getLsbD hm
    exact ⟨by simp, fun _ => by simp; omega, by simp⟩
  · split at h
    · rename_i e' he
      cases h
      obtain ⟨j, l, hj, hm, _, hcase⟩ := scanSelected_some he
      have h1 : j < 16 := by simpa using BitVec.lt_of_getLsbD hm
      have h2 : j < s.nch := (List.getElem?_eq_some_iff.1 hj).1
      rcases hcase with ⟨_, rfl⟩ | ⟨_, _, rfl⟩ <;> exact ⟨by simp, by simp, fun _ => by simp; omega⟩
    · cases h

theorem ready_iff {s : State} {c : Nat} {b a : Bool} :
    s.ready c b a = true ↔ ∃ k, s.chans[c]? = some k ∧ (b = true → k.bound = true) ∧ (a = true → k.armed = true) := by
  unfold State.ready
  cases s.chans[c]? with
  | none => simp
  | some k => cases b <;> cases a <;> simp

theorem accepted_updm {m : BitVec 16} {b : Byte} {s : State} :
    accepted (.updm m b) s = true ↔
      ∀ j, m.getLsbD j = true → ∃ k, s.chans[j]? = some k ∧ k.bound = true ∧ k.armed = true := by
  simp only [accepted, Instr.wellFormed, Bool.true_and, List.all_eq_true, List.mem_range, Bool.or_eq_true,
    Bool.not_eq_true', selects, ready_iff, true_implies]
  constructor
  · intro h j hj
    rcases h j (BitVec.lt_of_getLsbD hj) with h | h
    · simp [h] at hj
    · exact h
  · intro h j _
    by_cases hj : m.getLsbD j
    · exact .inr (h j hj)
    · exact .inl (by simpa using hj)

theorem accepted_armed {i : Instr} {s : State} {c : BitVec 4} (hu : ∀ m b, i ≠ .updm m b) (hc : i.channel? = some c)
    (hb : i.needsBound = true) (ha : i.needsArmed = true) :
    accepted i s = true ↔
      i.wellFormed = true ∧ ∃ k, s.chans[c.toNat]? = some k ∧ k.bound = true ∧ k.armed = true := by
  cases i <;> simp_all [accepted, ready_iff, Instr.channel?]

theorem accepted_bound {i : Instr} {s : State} {c : BitVec 4} (hc : i.channel? = some c)
    (hb : i.needsBound = true) (ha : i.needsArmed = false) :
    accepted i s = true ↔ i.wellFormed = true ∧ ∃ k, s.chans[c.toNat]? = some k ∧ k.bound = true := by
  cases i <;> simp_all [accepted, ready_iff, Instr.channel?, Instr.needsArmed, Instr.needsBound]

theorem accepted_init {s : State} {c : BitVec 4} {v : Variant} :
    accepted (.init c v) s = true ↔ ∃ k, s.chans[c.toNat]? = some k := by
  simp [accepted, ready_iff, Instr.channel?, Instr.needsArmed, Instr.needsBound, Instr.wellFormed]

/-- THE inversion lemma of `exec`: every command ends in a next state. An accepted command has its effect; any other
takes a command error. -/
theorem exec_effect_or_error (i : Instr) (s : State) :
    ∃ t, exec i s = .next t ∧
      (accepted i s = true ∧ Effect s i t ∨
        accepted i s = false ∧ ∃ e, t = s.takeCmdError e ∧ ErrorFits s e) := by
  cases i with
  | nop => exact ⟨s, rfl, .inl ⟨rfl, .nop⟩⟩
  | clrerr => exact ⟨s.clearErrors, rfl, .inl ⟨rfl, .clrerr⟩⟩
  | init c v =>
    cases h : s.chans[c.toNat]? with
    | none =>
      refine ⟨_, by simp [exec, execInit, requireChannel_none h, Except.map], .inr ⟨?_, _, rfl, errorFits_channel h⟩⟩
      rw [← Bool.not_eq_true, accepted_init]; simp [h]
    | some k =>
      exact ⟨_, by simp [exec, execInit, requireChannel_some h, Except.map], .inl ⟨accepted_init.2 ⟨k, h⟩, .init v h⟩⟩
  | start c =>
    have ha := accepted_bound (i := .start c) (s := s) (c := c) rfl rfl rfl
    rcases requireBound_cases s c with ⟨k, h, hb, hr⟩ | ⟨e, hr, hf, hn⟩
    · exact ⟨_, by simp [exec, execStart, hr, Except.map], .inl ⟨ha.2 ⟨rfl, k, h, hb⟩, .start h hb⟩⟩
    · refine ⟨_, by simp [exec, execStart, hr, Except.map], .inr ⟨?_, e, rfl, hf⟩⟩
      rw [← Bool.not_eq_true, ha]; exact fun h => hn h.2
  | tread c x =>
    have ha := accepted_bound (i := .tread c x) (s := s) (c := c) rfl rfl rfl
    rcases requireBound_cases s c with ⟨k, h, hb, hr⟩ | ⟨e, hr, hf, hn⟩
    · exact ⟨_, by simp [exec, execTread, hr, Except.map], .inl ⟨ha.2 ⟨rfl, k, h, hb⟩, .tread x h hb⟩⟩
    · refine ⟨_, by simp [exec, execTread, hr, Except.map], .inr ⟨?_, e, rfl, hf⟩⟩
      rw [← Bool.not_eq_true, ha]; exact fun h => hn h.2
  | updb c b =>
    have hacc := accepted_armed (i := .updb c b) (s := s) (c := c) (by simp) rfl rfl rfl
    rcases requireArmed_cases s c with ⟨k, h, hb, ha, hr⟩ | ⟨e, hr, hf, hn⟩
    · exact ⟨_, by simp [exec, execUpdb, hr, Except.map], .inl ⟨hacc.2 ⟨rfl, k, h, hb, ha⟩, .updb b h hb ha⟩⟩
    · refine ⟨_, by simp [exec, execUpdb, hr, Except.map], .inr ⟨?_, e, rfl, hf⟩⟩
      rw [← Bool.not_eq_true, hacc]; exact fun h => hn h.2
  | final c =>
    have hacc := accepted_armed (i := .final c) (s := s) (c := c) (by simp) rfl rfl rfl
    rcases requireArmed_cases s c with ⟨k, h, hb, ha, hr⟩ | ⟨e, hr, hf, hn⟩
    · exact ⟨_, by simp [exec, execFinal, hr, Except.map], .inl ⟨hacc.2 ⟨rfl, k, h, hb, ha⟩, .final h hb ha⟩⟩
    · refine ⟨_, by simp [exec, execFinal, hr, Except.map], .inr ⟨?_, e, rfl, hf⟩⟩
      rw [← Bool.not_eq_true, hacc]; exact fun h => hn h.2
  | updw c n =>
    have hacc := accepted_armed (i := .updw c n) (s := s) (c := c) (by simp) rfl rfl rfl
    simp only [Instr.wellFormed, decide_eq_true_eq] at hacc
    by_cases h4 : 4 < n.toNat
    · refine ⟨_, by simp [exec, execUpdw, h4], .inr ⟨?_, ⟨.field, c⟩, rfl, by simp, by simp, by simp⟩⟩
      rw [← Bool.not_eq_true, hacc]; omega
    · rcases requireArmed_cases s c with ⟨k, h, hb, ha, hr⟩ | ⟨e, hr, hf, hn⟩
      · exact ⟨_, by simp [exec, execUpdw, h4, hr, Except.map],
          .inl ⟨hacc.2 ⟨by omega, k, h, hb, ha⟩, .updw (by omega) h hb ha⟩⟩
      · refine ⟨_, by simp [exec, execUpdw, h4, hr, Except.map], .inr ⟨?_, e, rfl, hf⟩⟩
        rw [← Bool.not_eq_true, hacc]; exact fun h => hn h.2
  | updm m b =>
    cases hr : s.requireSelected m with
    | ok u =>
      cases u
      have h := requireSelected_ok.1 hr
      exact ⟨_, by simp [exec, execUpdm, hr, Except.map], .inl ⟨accepted_updm.2 h, .updm b h⟩⟩
    | error e =>
      obtain ⟨hf, hn⟩ := requireSelected_error hr
      refine ⟨_, by simp [exec, execUpdm, hr, Except.map], .inr ⟨?_, e, rfl, hf⟩⟩
      rw [← Bool.not_eq_true, accepted_updm]; exact hn

/-- An accepted command has its effect. -/
theorem exec_accepted {i : Instr} {s : State} (h : accepted i s = true) : ∃ t, exec i s = .next t ∧ Effect s i t := by
  obtain ⟨t, ht, ⟨_, he⟩ | ⟨hn, _⟩⟩ := exec_effect_or_error i s
  · exact ⟨t, ht, he⟩
  · simp [h] at hn

/-- A command that is not accepted takes a command error. -/
theorem exec_rejected {i : Instr} {s : State} (h : accepted i s = false) :
    ∃ e, exec i s = .next (s.takeCmdError e) ∧ ErrorFits s e := by
  obtain ⟨t, ht, ⟨ha, _⟩ | ⟨_, e, rfl, hf⟩⟩ := exec_effect_or_error i s
  · simp [h] at ha
  · exact ⟨e, ht, hf⟩

/-- What an effect does to one channel: one that is not selected stays, a selected one changes as its command says. -/
theorem effect_channel {i : Instr} {s t : State} (he : Effect s i t) (c : Nat) (k : Channel)
    (hk : s.chans[c]? = some k) :
    ∃ l, t.chans[c]? = some l ∧ (i.touches c = false → l = k) ∧
      (i.touches c = true → match i with
      | .init _ v => l = { variant := v, bound := true, armed := false, crc := k.crc, table := buildTable v }
      | .start _ => k.bound = true ∧ l = { k with crc := initValue k.variant, armed := true }
      | .updb _ b => k.bound = true ∧ k.armed = true ∧ l = k.absorb [b]
      | .updw _ n => k.bound = true ∧ k.armed = true ∧ l = k.absorb (dataBytes s.data n.toNat)
      | .updm _ b => k.bound = true ∧ k.armed = true ∧ l = k.absorb [b]
      | _ => l = k) := by
  have key : ∀ (d : BitVec 4) (k' x : Channel), s.chans[d.toNat]? = some k' →
      ∃ l, (s.setChannel d.toNat x).chans[c]? = some l ∧ (d.toNat ≠ c → l = k) ∧ (d.toNat = c → k = k' ∧ l = x) := by
    intro d k' x hd
    by_cases h : d.toNat = c
    · subst h
      rw [hd] at hk; cases hk
      exact ⟨x, by simp [(List.getElem?_eq_some_iff.1 hd).1], by simp, by simp⟩
    · exact ⟨k, by simp [h, hk], by simp, by simp [h]⟩
  cases he with
  | nop => exact ⟨k, hk, by simp, by simp⟩
  | clrerr => exact ⟨k, hk, by simp, by simp⟩
  | final => exact ⟨k, hk, by simp, by simp⟩
  | tread => exact ⟨k, hk, by simp, by simp⟩
  | @init d k' v h =>
    obtain ⟨l, h1, h2, h3⟩ := key d k' _ h
    refine ⟨l, h1, by simpa [Instr.touches] using h2, ?_⟩
    simp only [Instr.touches, beq_iff_eq]
    intro hc; obtain ⟨rfl, rfl⟩ := h3 hc; rfl
  | @start d k' h hb =>
    obtain ⟨l, h1, h2, h3⟩ := key d k' _ h
    refine ⟨l, h1, by simpa [Instr.touches] using h2, ?_⟩
    simp only [Instr.touches, beq_iff_eq]
    intro hc; obtain ⟨rfl, rfl⟩ := h3 hc; exact ⟨hb, rfl⟩
  | @updb d k' b h hb ha =>
    obtain ⟨l, h1, h2, h3⟩ := key d k' _ h
    refine ⟨l, h1, by simpa [Instr.touches] using h2, ?_⟩
    simp only [Instr.touches, beq_iff_eq]
    intro hc; obtain ⟨rfl, rfl⟩ := h3 hc; exact ⟨hb, ha, rfl⟩
  | @updw d k' n hn h hb ha =>
    obtain ⟨l, h1, h2, h3⟩ := key d k' _ h
    refine ⟨l, h1, by simpa [Instr.touches] using h2, ?_⟩
    simp only [Instr.touches, beq_iff_eq]
    intro hc; obtain ⟨rfl, rfl⟩ := h3 hc; exact ⟨hb, ha, rfl⟩
  | @updm m b h =>
    refine ⟨if selects m c then k.absorb [b] else k, by simp [hk], ?_, ?_⟩
    · intro h'; simp only [Instr.touches] at h'; simp [h']
    · intro h'; simp only [Instr.touches] at h'
      obtain ⟨k', hk', hb, ha⟩ := h c h'
      rw [hk] at hk'; cases hk'
      exact ⟨hb, ha, by simp [h']⟩

/-- No effect changes the number of channels (10_state.md R41). -/
theorem effect_nch {i : Instr} {s t : State} (he : Effect s i t) : t.nch = s.nch := by
  cases he <;> simp

/-- Writing back the channel that is there changes nothing. -/
theorem setChannel_same {s : State} {c : Nat} {k : Channel} (h : s.chans[c]? = some k) : s.setChannel c k = s := by
  have : s.chans.set c k = s.chans := by
    apply List.ext_getElem?
    intro j
    rw [List.getElem?_set]
    split
    · subst_vars
      simpa [h] using (List.getElem?_eq_some_iff.1 h).1
    · rfl
  simp [State.setChannel, this]

end Sys2Proof.Machine
end

