-- ==== Sys2Proof/Laws/PerInstr.lean ====
section
/-! SUPPORT. A law of every instruction as syntax: its command word matches its row of the opcode map (30_encoding.md
R96), so no reserved bit of an encoded command is 1 (R92). -/

namespace Sys2Proof.Laws.MatchesRow

/-- The command word of `i` agrees with the match of its row under the row's mask (30_encoding.md R96). -/
def Statement (i : Instr) : Prop :=
  ∃ row, Decode.rowOf i.opcode = some row ∧ encode i &&& row.mask = row.pattern

/-- A word agrees with a pattern under a mask when it does so bit by bit. -/
theorem masked_eq {w mask pattern : Word}
    (h : ∀ j, j < 32 → (w.getLsbD j && mask.getLsbD j) = pattern.getLsbD j) : w &&& mask = pattern := by
  apply BitVec.eq_of_getLsbD_eq
  intro j hj
  rw [BitVec.getLsbD_and]
  exact h j hj

theorem nop : Statement .nop := ⟨_, rfl, by decide⟩

theorem init (ch : BitVec 4) (v : Variant) : Statement (.init ch v) := by
  refine ⟨_, rfl, masked_eq fun j hj => ?_⟩
  simp only [encode, BitVec.getLsbD_or, place_getLsbD]
  interval_cases j <;> simp

theorem start (ch : BitVec 4) : Statement (.start ch) := by
  refine ⟨_, rfl, masked_eq fun j hj => ?_⟩
  simp only [encode, BitVec.getLsbD_or, place_getLsbD]
  interval_cases j <;> simp

theorem updb (ch : BitVec 4) (b : Byte) : Statement (.updb ch b) := by
  refine ⟨_, rfl, masked_eq fun j hj => ?_⟩
  simp only [encode, BitVec.getLsbD_or, place_getLsbD]
  interval_cases j <;> simp

theorem updw (ch : BitVec 4) (n : BitVec 3) : Statement (.updw ch n) := by
  refine ⟨_, rfl, masked_eq fun j hj => ?_⟩
  simp only [encode, BitVec.getLsbD_or, place_getLsbD]
  interval_cases j <;> simp

theorem updm (mask : BitVec 16) (b : Byte) : Statement (.updm mask b) := by
  refine ⟨_, rfl, masked_eq fun j hj => ?_⟩
  simp only [encode, BitVec.getLsbD_or, place_getLsbD]
  interval_cases j <;> simp

theorem final (ch : BitVec 4) : Statement (.final ch) := by
  refine ⟨_, rfl, masked_eq fun j hj => ?_⟩
  simp only [encode, BitVec.getLsbD_or, place_getLsbD]
  interval_cases j <;> simp

theorem tread (ch : BitVec 4) (idx : Byte) : Statement (.tread ch idx) := by
  refine ⟨_, rfl, masked_eq fun j hj => ?_⟩
  simp only [encode, BitVec.getLsbD_or, place_getLsbD]
  interval_cases j <;> simp

theorem clrerr : Statement .clrerr := ⟨_, rfl, by decide⟩

end Sys2Proof.Laws.MatchesRow
end

