-- ==== Sys2Proof/Laws/Step.lean ====
section
/-! SUPPORT. What one step does, said once (20_memory.md R62, R63, R70; 70_reset_and_hazards.md R210). -/

namespace Sys2Proof.Machine

@[simp] theorem respond_next (r : Response) (t : State) : respond r (.next t) = .next { t with response := some r } :=
  rfl

@[simp] theorem respond_fault (r : Response) (f : Fault) : respond r (.fault f) = .fault f := rfl

/-- A command word is always performed to a next state: its effect, or the error procedure (60_exceptions.md R181,
R186). -/
theorem performCommand_cases (w : Word) (s : State) :
    (∃ i t, decode w = .ok i ∧ performCommand w s = .next t ∧ accepted i s = true ∧ Effect s i t) ∨
    (∃ i e, decode w = .ok i ∧ performCommand w s = .next (s.takeCmdError e) ∧ accepted i s = false ∧ ErrorFits s e) ∨
    (∃ e, decode w = .error e ∧ performCommand w s = .next (s.takeCmdError e)) := by
  cases hd : decode w with
  | error e => exact .inr (.inr ⟨e, rfl, by simp [performCommand, hd]⟩)
  | ok i =>
    have hp : performCommand w s = exec i s := by simp [performCommand, hd]
    rw [hp]
    obtain ⟨t, ht, ⟨ha, he⟩ | ⟨ha, e, rfl, hf⟩⟩ := exec_effect_or_error i s
    · exact .inl ⟨i, t, rfl, ht, ha, he⟩
    · exact .inr (.inl ⟨i, e, rfl, ht, ha, hf⟩)

theorem performCommand_total (w : Word) (s : State) : ∃ t, performCommand w s = .next t := by
  rcases performCommand_cases w s with ⟨_, t, _, h, _⟩ | ⟨_, e, _, h, _⟩ | ⟨e, _, h⟩ <;> exact ⟨_, h⟩

theorem step_idle {s : State} (h : s.inputs = []) : step s = .next s := by simp [step, h]

theorem step_reset {s : State} {a : Option Transfer} {rest : List HostEvent} (h : s.inputs = .reset a :: rest) :
    step s = .next { s with inputs := rest }.resetBlock := by simp [step, h, performEvent]

/-- A whole-word write to CMD performs its word and then completes (20_memory.md R63, R70). -/
theorem step_command {s : State} {w : Word} {rest : List HostEvent}
    (h : s.inputs = .transfer (.write 0x00 32 0xF w) :: rest) :
    step s = respond .done (performCommand w { s with inputs := rest }) := by
  simp [step, h, performEvent, performTransfer, busWrite, accessLegal]

/-- A whole-word write to DATA (20_memory.md R63). -/
theorem step_data {s : State} {v : Word} {rest : List HostEvent}
    (h : s.inputs = .transfer (.write 0x04 32 0xF v) :: rest) :
    step s = .next { s with inputs := rest, data := v, response := some .done } := by
  simp [step, h, performEvent, performTransfer, busWrite, accessLegal]

theorem pendingWord_eq_some {s : State} {w : Word} :
    s.pendingWord = some w ↔ ∃ rest, s.inputs = .transfer (.write 0x00 32 0xF w) :: rest := by
  unfold State.pendingWord
  constructor
  · intro h
    split at h
    · rename_i off bits strobes v rest hin
      split at h
      · rename_i hc
        obtain ⟨rfl, rfl, rfl⟩ := hc
        cases h
        exact ⟨rest, hin⟩
      · cases h
    · cases h
  · rintro ⟨rest, h⟩
    simp [h, regOffset]

/-- A write that answers a next state is a whole-word write to CMD or to DATA. -/
theorem busWrite_cases {s t : State} {off : BitVec 5} {bits : Nat} {strobes : BitVec 4} {v : Word}
    (h : busWrite s off bits strobes v = .next t) :
    bits = 32 ∧ strobes = 0xF ∧
      (off = 0x00 ∧ performCommand v s = .next t ∨ off = 0x04 ∧ t = { s with data := v }) := by
  unfold busWrite at h
  split at h
  · rename_i hl
    simp only [accessLegal, Bool.and_eq_true, beq_iff_eq] at hl
    refine ⟨hl.1.1.1, hl.2, ?_⟩
    split at h
    · rename_i h0
      exact .inl ⟨BitVec.eq_of_toNat_eq h0, h⟩
    · rename_i h4
      simp at h
      exact .inr ⟨BitVec.eq_of_toNat_eq h4, h.symm⟩
    · cases h
  · cases h

/-- THE inversion lemma of `step`: a next state is reached in one of these five ways. -/
theorem step_cases {s t : State} (h : step s = .next t) :
    (s.inputs = [] ∧ t = s) ∨
    (∃ off bits rest v, s.inputs = .transfer (.read off bits) :: rest ∧
      busRead { s with inputs := rest } off bits = .ok v ∧
      t = { s with inputs := rest, response := some (.data v) }) ∨
    (∃ rest v, s.inputs = .transfer (.write 0x04 32 0xF v) :: rest ∧
      t = { s with inputs := rest, data := v, response := some .done }) ∨
    (∃ rest w u, s.inputs = .transfer (.write 0x00 32 0xF w) :: rest ∧
      performCommand w { s with inputs := rest } = .next u ∧ t = { u with response := some .done }) ∨
    (∃ a rest, s.inputs = .reset a :: rest ∧ t = { s with inputs := rest }.resetBlock) := by
  cases hin : s.inputs with
  | nil =>
    rw [step_idle hin] at h
    cases h
    exact .inl ⟨rfl, rfl⟩
  | cons e rest =>
    refine .inr ?_
    cases e with
    | reset a =>
      rw [step_reset hin] at h
      cases h
      exact .inr (.inr (.inr ⟨a, rest, rfl, rfl⟩))
    | transfer tr =>
      simp only [step, hin, performEvent, performTransfer] at h
      cases tr with
      | read off bits =>
        simp only at h
        split at h
        · rename_i v hv
          cases h
          exact .inl ⟨off, bits, rest, v, rfl, hv, rfl⟩
        · cases h
      | write off bits strobes v =>
        simp only at h
        cases hw : busWrite { s with inputs := rest } off bits strobes v with
        | next u =>
          rw [hw] at h
          cases h
          obtain ⟨rfl, rfl, ⟨rfl, hp⟩ | ⟨rfl, rfl⟩⟩ := busWrite_cases hw
          · exact .inr (.inr (.inl ⟨rest, v, u, rfl, hp, rfl⟩))
          · exact .inr (.inl ⟨rest, v, rfl, rfl⟩)
        | fault f => rw [hw] at h; cases h
        | refused f => rw [hw] at h; cases h

/-- No command word changes the number of channels (00_scope.md R8, 10_state.md R41). -/
theorem performCommand_nch {s t : State} {w : Word} (h : performCommand w s = .next t) : t.nch = s.nch := by
  rcases performCommand_cases w s with ⟨_, u, _, hu, _, he⟩ | ⟨_, e, _, hu, _⟩ | ⟨e, _, hu⟩ <;> rw [hu] at h <;> cases h
  · exact effect_nch he
  · rfl
  · rfl

/-- No step changes the number of channels (00_scope.md R8, 10_state.md R41). -/
theorem step_nch {s t : State} (h : step s = .next t) : t.nch = s.nch := by
  rcases step_cases h with ⟨-, rfl⟩ | ⟨_, _, _, _, -, -, rfl⟩ | ⟨_, _, -, rfl⟩ | ⟨rest, w, u, -, hu, rfl⟩ | ⟨_, _, -, rfl⟩
  · rfl
  · rfl
  · rfl
  · have hn := performCommand_nch hu
    exact hn
  · simp [State.nch]

end Sys2Proof.Machine
end

