-- ==== Sys2Proof/Machine/Assembler.lean ====
section
/-! DEFINITION. The assembler line syntax (30_encoding.md R102, R103): one line of text to the host events it stands
for. Log entry 13 names what the syntax leaves open. -/

namespace Sys2Proof.Machine

/-- The tokens of a line. -/
inductive Token where
  | name (n : List Char)
  | num (n : Nat)
  | text (t : List Char)
  | comma
  | openSet
  | closeSet
deriving DecidableEq, Repr

/-- The value of a digit in base 16, and so in base 10. -/
def digitValue (c : Char) : Option Nat :=
  if '0' ≤ c ∧ c ≤ '9' then some (c.toNat - 48)
  else if 'A' ≤ c ∧ c ≤ 'F' then some (c.toNat - 55)
  else if 'a' ≤ c ∧ c ≤ 'f' then some (c.toNat - 87)
  else none

/-- Digits in a base, most significant first. -/
def digits (base : Nat) : Nat → List Char → Option Nat
  | n, [] => some n
  | n, c :: cs =>
    match digitValue c with
    | none => none
    | some d => if d < base then digits base (base * n + d) cs else none

/-- A number: decimal, or hexadecimal with `0x` (30_encoding.md R102). -/
def number : List Char → Option Nat
  | [] => none
  | '0' :: 'x' :: c :: cs => digits 16 0 (c :: cs)
  | cs => digits 10 0 cs

/-- A word of letters and digits as a token: a number when it begins with a digit, else a name. -/
def wordToken (w : List Char) : Option Token :=
  if w.head?.any Char.isDigit then (number w).map .num else some (.name w)

/-- Where the lexer stands: between tokens, in a word (its letters so far, last first), in a quoted text (the same),
or in a comment. -/
inductive LexMode where
  | idle
  | word (acc : List Char)
  | text (acc : List Char)
  | comment
deriving DecidableEq, Repr

/-- The token of a single character. Codes 123 and 125 are the braces of a channel list. -/
def charToken (c : Char) : Option Token :=
  if c = ',' then some .comma
  else if c.toNat = 123 then some .openSet
  else if c.toNat = 125 then some .closeSet
  else none

/-- The tokens ended by a character outside a quoted text: the word so far, if one stands. -/
def endWord : LexMode → Option (List Token)
  | .word acc => (wordToken acc.reverse).map fun t => [t]
  | _ => some []

/-- The tokens of a line; a semicolon starts a comment (30_encoding.md R102). DESIGN CHOICE (log entry 13): not within a
quoted text; an unclosed text and a character of no token make the line none of the syntax. -/
def lex : LexMode → List Char → Option (List Token)
  | .text _, [] => none
  | m, [] => endWord m
  | .comment, _ :: cs => lex .comment cs
  | .text acc, c :: cs =>
    if c = '"' then (lex .idle cs).map fun ts => .text acc.reverse :: ts else lex (.text (c :: acc)) cs
  | .idle, c :: cs =>
    if c = ' ' ∨ c = '\t' then lex .idle cs
    else if c = ';' then lex .comment cs
    else if c = '"' then lex (.text []) cs
    else if c.isAlphanum then lex (.word [c]) cs
    else
      match charToken c with
      | none => none
      | some t => (lex .idle cs).map fun ts => t :: ts
  | .word acc, c :: cs =>
    if c.isAlphanum then lex (.word (c :: acc)) cs
    else
      match endWord (.word acc) with
      | none => none
      | some w =>
        if c = ' ' ∨ c = '\t' then (lex .idle cs).map fun ts => w ++ ts
        else if c = ';' then (lex .comment cs).map fun ts => w ++ ts
        else
          match charToken c with
          | none => none
          | some t => (lex .idle cs).map fun ts => w ++ t :: ts

/-- A number that fits a field of `width` bits (30_encoding.md R94). -/
def fieldOf (width n : Nat) : Option (BitVec width) :=
  if n < 2 ^ width then some (BitVec.ofNat width n) else none

/-- Operands after a comma each: the byte list of COMPUTE and UPDSPAN. -/
def byteList : List Token → Option (List Byte)
  | [] => some []
  | .comma :: .num n :: ts =>
    match fieldOf 8 n, byteList ts with
    | some b, some bs => some (b :: bs)
    | _, _ => none
  | _ => none

/-- The rest of a channel list after its first channel, the closing brace, and the tokens that follow
(30_encoding.md R102). -/
def channelList : List Token → Option (List Nat × List Token)
  | .closeSet :: ts => some ([], ts)
  | .comma :: .num n :: ts =>
    match channelList ts with
    | some (cs, rest) => if n < 16 then some (n :: cs, rest) else none
    | none => none
  | _ => none

/-- The mask operand of UPDM: a number or a channel list, and the tokens that follow (30_encoding.md R102). -/
def maskOperand : List Token → Option (BitVec 16 × List Token)
  | .num n :: ts => (fieldOf 16 n).map fun m => (m, ts)
  | .openSet :: .closeSet :: ts => some (0, ts)
  | .openSet :: .num n :: ts =>
    match channelList ts with
    | some (cs, rest) => if n < 16 then some (maskOf (n :: cs), rest) else none
    | none => none
  | _ => none

/-- The register names of `WR` and `RD` (20_memory.md R61). -/
def regNamed (n : List Char) : Option Reg :=
  if n = ['C', 'M', 'D'] then some .cmd
  else if n = ['D', 'A', 'T', 'A'] then some .data
  else if n = ['R', 'E', 'S', 'U', 'L', 'T'] then some .result
  else if n = ['S', 'T', 'A', 'T', 'U', 'S'] then some .status
  else if n = ['C', 'H', 'S', 'T', 'A', 'T'] then some .chstat
  else if n = ['C', 'H', 'V', 'A', 'R'] then some .chvar
  else if n = ['P', 'A', 'R', 'A', 'M'] then some .param
  else none

/-- The variant names of INIT (30_encoding.md R102). -/
def variantNamed (n : List Char) : Option Variant :=
  if n = ['N', 'O', 'R', 'M', 'A', 'L'] then some .normal
  else if n = ['M', 'P', 'E', 'G', '2'] then some .mpeg2
  else none

/-- A command with a channel operand, by its mnemonic and the tokens after the channel (30_encoding.md R102,
R103). -/
def channelLine (m : List Char) (c : BitVec 4) (ts : List Token) : Option (List HostEvent) :=
  match m, ts with
  | ['I', 'N', 'I', 'T'], [.comma, .name v] => (variantNamed v).map fun v => [issue (.init c v)]
  | ['S', 'T', 'A', 'R', 'T'], [] => some [issue (.start c)]
  | ['U', 'P', 'D', 'B'], [.comma, .num b] => (fieldOf 8 b).map fun b => [issue (.updb c b)]
  | ['U', 'P', 'D', 'W'], [.comma, .num n] => (fieldOf 3 n).map fun n => [issue (.updw c n)]
  | ['F', 'I', 'N', 'A', 'L'], [] => some [issue (.final c)]
  | ['T', 'R', 'E', 'A', 'D'], [.comma, .num x] => (fieldOf 8 x).map fun x => [issue (.tread c x)]
  | ['C', 'O', 'M', 'P', 'U', 'T', 'E'], ts => (byteList ts).map fun bs => compute c bs
  | ['U', 'P', 'D', 'S', 'T', 'R'], [.comma, .text t] =>
    if t.all fun x => x.toNat < 128 then some (updstr c t) else none
  | ['U', 'P', 'D', 'S', 'P', 'A', 'N'], ts => (byteList ts).map fun bs => updspan c bs
  | _, _ => none

/-- A line's tokens as host events (30_encoding.md R102, R103). DESIGN CHOICE (log entry 13): a line with no command, that is
empty, blank or only a comment, is a line of the syntax and stands for no event; the spec does not say. -/
def lineEvents : List Token → Option (List HostEvent)
  | [] => some []
  | [.name ['N', 'O', 'P']] => some [issue .nop]
  | [.name ['C', 'L', 'R', 'E', 'R', 'R']] => some [issue .clrerr]
  | [.name ['B', 'O', 'O', 'T']] => some boot
  | [.name ['R', 'D'], .name r] => (regNamed r).map fun r => [rd r]
  | [.name ['W', 'R'], .name r, .comma, .num v] =>
    match regNamed r, fieldOf 32 v with
    | some r, some v => some [wr r v]
    | _, _ => none
  | .name ['U', 'P', 'D', 'M'] :: ts =>
    match maskOperand ts with
    | some (m, [.comma, .num b]) => (fieldOf 8 b).map fun b => [issue (.updm m b)]
    | _ => none
  | .name m :: .num c :: ts =>
    match fieldOf 4 c with
    | some c => channelLine m c ts
    | none => none
  | _ => none

/-- One line of assembler text: the host events it stands for, `none` where it is no line of the syntax
(30_encoding.md R102, R103). -/
def assembleLine (line : List Char) : Option (List HostEvent) :=
  match lex .idle line with
  | some ts => lineEvents ts
  | none => none

end Sys2Proof.Machine
end

