-- ==== Sys2Proof/Tests/Slice0.lean ====
section
/-! SUPPORT. The model's own tests. Expected values come from the spec: 30_encoding.md R102 and R104, and the vectors
V1 to V40 of 95_test_vectors.md. The last part holds, for each statement with hypotheses, a state and operands that meet
them. -/

open Sys2Proof Sys2Proof.Machine

namespace Sys2Proof.Tests

/-- A bound channel with its variant's table. -/
def bound (v : Variant) (armed : Bool) (r : Word) : Channel :=
  { variant := v, bound := true, armed := armed, crc := r, table := buildTable v }

/-- The state S0 of 95_test_vectors.md section 4: channel 0 NORMAL and armed, channel 1 MPEG2 and bound. -/
def s0 : State := { State.reset with chans := [bound .normal true 0xFFFFFFFF, bound .mpeg2 false 0] }

/-- S0 after START 1. -/
def s1 : State := { State.reset with chans := [bound .normal true 0xFFFFFFFF, bound .mpeg2 true 0xFFFFFFFF] }

/-- S0 after an E_OPCODE was recorded. -/
def s0err : State := { s0 with status := { err := true, emult := false, ecode := 1, ech := 0, rvalid := false } }

/-- The given host events to come. -/
def withNext (s : State) (es : List HostEvent) : State := { s with inputs := es }

/-- What holds of the next state, if there is one. -/
def holds (o : Host.Outcome State Fault Refusal) (p : State → Bool) : Bool :=
  match o with
  | .next t => p t
  | _ => false

/-- The step faulted. -/
def faults (o : Host.Outcome State Fault Refusal) : Bool :=
  match o with
  | .fault .busError => true
  | _ => false

/-- The next state, if there is one. -/
def after (s : State) : State :=
  match step s with
  | .next t => t
  | _ => s

/-- `CRC[c]`. -/
def crcAt (s : State) (c : Nat) : Option Word := s.chans[c]?.map Channel.crc

/-- RESULT, STATUS and CHSTAT. -/
def seen (s : State) : Word × Word × Word := (s.result, s.status.toWord, chstatWord s)

/-! ## Well-formedness -/

/-- UPDW with N = 5 is no command (30_encoding.md R93). -/
theorem test_updw_five_is_ill_formed : (Instr.updw 0 5).wellFormed = false := by decide

/-- UPDW with N = 4 is one (30_encoding.md R93). -/
theorem test_updw_four_is_well_formed : (Instr.updw 0 4).wellFormed = true := by decide

/-! ## Decoding: words written out from 30_encoding.md R92 and R102 -/

theorem test_decode_nop : decode 0x00000000 = .ok .nop := by rfl

theorem test_decode_init_mpeg2 : decode 0x11000001 = .ok (.init 1 .mpeg2) := by rfl

theorem test_decode_init_normal : decode 0x1F000000 = .ok (.init 15 .normal) := by rfl

theorem test_decode_start : decode 0b0010_1010_0000_0000_0000_0000_0000_0000 = .ok (.start 10) := by rfl

theorem test_decode_updb : decode 0b0011_0010_0000_0000_0000_0000_1001_1010 = .ok (.updb 2 0x9A) := by rfl

theorem test_decode_updw : decode 0x41000004 = .ok (.updw 1 4) := by rfl

theorem test_decode_updm : decode 0b0101_0000_1000_0000_0000_0001_0011_0010 = .ok (.updm 0x8001 0x32) := by rfl

theorem test_decode_final : decode 0x61000000 = .ok (.final 1) := by rfl

theorem test_decode_tread : decode 0x700000FF = .ok (.tread 0 0xFF) := by rfl

theorem test_decode_clrerr : decode 0x80000000 = .ok .clrerr := by rfl

/-- V30 rows 4, 16, 22 and 30, V32 row 2: reserved bits (30_encoding.md R99). -/
theorem test_decode_reserved_bits :
    decode 0x10000002 = .error ⟨.field, 0⟩ ∧ decode 0x40000005 = .error ⟨.field, 0⟩ ∧
    decode 0x51000131 = .error ⟨.field, 1⟩ ∧ decode 0x80000001 = .error ⟨.field, 0⟩ ∧
    decode 0x2F000001 = .error ⟨.field, 15⟩ := ⟨rfl, rfl, rfl, rfl, rfl⟩

/-- V30 rows 31 and 32: reserved opcodes (30_encoding.md R98). -/
theorem test_decode_reserved_opcodes :
    decode 0x9A000000 = .error ⟨.opcode, 10⟩ ∧ decode 0xFFFFFFFF = .error ⟨.opcode, 15⟩ := ⟨rfl, rfl⟩

/-- 30_encoding.md R102 and R104. -/
theorem test_encode_words :
    encode (.init 1 .mpeg2) = 0x11000001 ∧ encode (.start 3) = 0x23000000 ∧ encode (.updb 0 0x31) = 0x30000031 ∧
    encode (.updw 1 4) = 0x41000004 ∧ encode (.updm 0x0003 0x31) = 0x50000331 ∧ encode (.final 1) = 0x61000000 ∧
    encode (.tread 0 0xFF) = 0x700000FF ∧ encode .clrerr = 0x80000000 ∧ encode .nop = 0x00000000 := by decide

theorem test_decode_table_word : decodeTableWord 32 0x41000004 = some (.updw 1 4) := by rfl

/-! ## The table and the fold -/

/-- V10: entries 0x01, 0x80, 0xCE and 0xFF of the NORMAL table. -/
theorem test_normal_table :
    (buildTable .normal).entry 0x01 = 0x77073096 ∧ (buildTable .normal).entry 0x80 = 0xEDB88320 ∧
    (buildTable .normal).entry 0xCE = 0x7CDCEFB7 ∧ (buildTable .normal).entry 0xFF = 0x2D02EF8D := by
  decide +kernel

/-- V11: entries 0x01, 0x80, 0xCE and 0xFF of the MPEG2 table. -/
theorem test_mpeg2_table :
    (buildTable .mpeg2).entry 0x01 = 0x04C11DB7 ∧ (buildTable .mpeg2).entry 0x80 = 0x690CE0EE ∧
    (buildTable .mpeg2).entry 0xCE = 0x61043093 ∧ (buildTable .mpeg2).entry 0xFF = 0xB1F740B4 := by
  decide +kernel

/-- V20: the rows with r = 0x12345678. -/
theorem test_fold :
    fold .normal (buildTable .normal) 0x12345678 0x9A = 0x4E16B702 ∧
    fold .mpeg2 (buildTable .mpeg2) 0x12345678 0x9A = 0x7B527556 := by decide +kernel

/-- V1 and V2: the check values of "123456789". -/
theorem test_check_values :
    crc .normal [0x31, 0x32, 0x33, 0x34, 0x35, 0x36, 0x37, 0x38, 0x39] = 0xCBF43926 ∧
    crc .mpeg2 [0x31, 0x32, 0x33, 0x34, 0x35, 0x36, 0x37, 0x38, 0x39] = 0x0376E6E7 := by decide +kernel

/-! ## The commands: V30, one command each -/

/-- V30 row 1. -/
theorem test_nop : holds (performCommand 0x00000000 s0) (fun t => seen t == (0, 0, 0x00010003)) = true := by
  decide +kernel

/-- V30 row 2: re-binding an armed channel disarms it. -/
theorem test_init_rebinds : holds (performCommand 0x10000001 s0)
    (fun t => seen t == (0, 0, 0x00000003) && chvarWord t == 0x3) = true := by decide +kernel

/-- V30 row 3: INIT of a channel that does not exist. -/
theorem test_init_no_channel :
    holds (performCommand 0x12000000 s0) (fun t => seen t == (0, 0x00000231, 0x00010003)) = true := by decide +kernel

/-- V30 row 5. -/
theorem test_start : holds (performCommand 0x21000000 s0)
    (fun t => seen t == (0, 0, 0x00030003) && crcAt t 1 == some 0xFFFFFFFF) = true := by decide +kernel

/-- V31 row 1: START of an unbound channel. -/
theorem test_start_unbound :
    holds (performCommand 0x20000000 State.reset) (fun t => t.status.toWord == 0x00000041) = true := by decide +kernel

/-- V30 row 8. -/
theorem test_updb : holds (performCommand 0x30000031 s0)
    (fun t => seen t == (0, 0, 0x00010003) && crcAt t 0 == some 0x7C231048) = true := by decide +kernel

/-- V30 row 9: UPDB of a channel that is not armed. -/
theorem test_updb_not_armed :
    holds (performCommand 0x31000031 s0) (fun t => seen t == (0, 0x00000151, 0x00010003)) = true := by decide +kernel

/-- V30 row 14: three bytes of DATA, the fourth ignored. -/
theorem test_updw : holds (performCommand 0x40000003 { s0 with data := 0x34333231 })
    (fun t => crcAt t 0 == some 0x77B79C2D && t.data == 0x34333231) = true := by decide +kernel

/-- V30 row 17: the checks are made even when N = 0. -/
theorem test_updw_none_not_armed :
    holds (performCommand 0x41000000 s0) (fun t => seen t == (0, 0x00000151, 0x00010003)) = true := by decide +kernel

/-- V30 row 20. -/
theorem test_updm : holds (performCommand 0x50000331 s1)
    (fun t => crcAt t 0 == some 0x7C231048 && crcAt t 1 == some 0x9EFBCF93 && t.status.toWord == 0) = true := by
  decide +kernel

/-- V30 row 19: an error folds into no channel. -/
theorem test_updm_all_or_none : holds (performCommand 0x50000331 s0)
    (fun t => crcAt t 0 == some 0xFFFFFFFF && t.status.toWord == 0x00000151) = true := by decide +kernel

/-- V30 row 25. -/
theorem test_final :
    holds (performCommand 0x61000000 s1) (fun t => seen t == (0xFFFFFFFF, 0x00001000, 0x00030003)) = true := by
  decide +kernel

/-- V30 row 24: FINAL of a channel that is not armed. -/
theorem test_final_not_armed :
    holds (performCommand 0x61000000 s0) (fun t => seen t == (0, 0x00000151, 0x00010003)) = true := by decide +kernel

/-- V30 row 27: TREAD needs no armed channel. -/
theorem test_tread :
    holds (performCommand 0x71000001 s0) (fun t => seen t == (0x04C11DB7, 0x00001000, 0x00010003)) = true := by
  decide +kernel

/-- V31 row 4: TREAD of an unbound channel. -/
theorem test_tread_unbound :
    holds (performCommand 0x70000000 State.reset) (fun t => t.status.toWord == 0x00000041) = true := by decide +kernel

/-- V30 row 29. -/
theorem test_clrerr :
    holds (performCommand 0x80000000 s0err) (fun t => seen t == (0, 0, 0x00010003)) = true := by decide +kernel

/-- V30 row 33: the first error is kept, EMULT is set. -/
theorem test_second_error :
    holds (performCommand 0x61000000 s0err) (fun t => t.status.toWord == 0x00000013) = true := by decide +kernel

/-- V32, the UPDM rows: the lowest bit without a channel; a channel that is not armed before one that is not bound. -/
theorem test_updm_check_order :
    holds (performCommand 0x50000C31 s0) (fun t => t.status.toWord == 0x00000231) = true ∧
    holds (performCommand 0x50000331 { State.reset with chans := [bound .normal false 0, Channel.atReset 0 (buildTable .normal)] })
      (fun t => t.status.toWord == 0x00000051) = true := by decide +kernel

/-! ## The bus: V40 -/

theorem test_read_param :
    holds (step (withNext s0 [rd .param])) (fun t => t.response == some (.data 2)) = true := by decide +kernel

theorem test_read_chstat :
    holds (step (withNext s0 [rd .chstat])) (fun t => t.response == some (.data 0x00010003)) = true := by
  decide +kernel

theorem test_write_data : holds (step (withNext s0 [wr .data 0x12345678]))
    (fun t => t.data == 0x12345678 && t.response == some .done) = true := by decide +kernel

theorem test_command_error_completes : holds (step (withNext s0 [wr .cmd 0x90000000]))
    (fun t => t.status.toWord == 0x00000011 && t.response == some .done) = true := by decide +kernel

theorem test_bus_errors :
    faults (step (withNext s0 [rd .cmd])) = true ∧ faults (step (withNext s0 [.transfer (.read 0x1C 32)])) = true ∧
    faults (step (withNext s0 [.transfer (.read 0x06 32)])) = true ∧
    faults (step (withNext s0 [.transfer (.read 0x04 8)])) = true ∧
    faults (step (withNext s0 [wr .status 0])) = true ∧ faults (step (withNext s0 [wr .param 0])) = true ∧
    faults (step (withNext s0 [.transfer (.write 0x04 32 0x3 0)])) = true := by decide +kernel

/-- 70_reset_and_hazards.md R211: reset during a CMD write. -/
theorem test_reset_input :
    holds (step (withNext s1 [.reset (some (.write 0x00 32 0xF 0x60000000)), rd .param]))
      (fun t => seen t == (0, 0, 0) && t.inputs == [rd .param] && t.nch == 2) = true := by decide +kernel

/-- A command written after reset runs as the first step. -/
theorem test_fetch_word :
    holds (step (State.reset.withFetchWord 32 0x11000001)) (fun t => chstatWord t == 0x2 && chvarWord t == 0x2) = true := by
  decide +kernel

/-! ## The host's side -/

/-- V4. -/
theorem test_render :
    renderResult 0x0376E6E7 = "0x0376E6E7".toList ∧ renderResult 0xCBF43926 = "0xCBF43926".toList ∧
    renderResult 0 = "0x00000000".toList := by decide +kernel

/-- 95_test_vectors.md P2: the DATA words of "123456789". -/
theorem test_updspan :
    updspan 1 [0x31, 0x32, 0x33, 0x34, 0x35] =
      [wr .data 0x34333231, wr .cmd 0x41000004, wr .data 0x00000035, wr .cmd 0x41000001] := by decide +kernel

/-- 30_encoding.md R102 and R104. -/
theorem test_assemble :
    assembleLine "INIT 1, MPEG2 ; bind".toList = some [wr .cmd 0x11000001] ∧
    assembleLine "UPDB 0, 0x31".toList = some [wr .cmd 0x30000031] ∧
    assembleLine ("UPDM ".toList ++ [Char.ofNat 123] ++ "0,1".toList ++ [Char.ofNat 125] ++ ", 0x31".toList) =
      some [wr .cmd 0x50000331] ∧
    assembleLine "WR DATA, 0x34333231".toList = some [wr .data 0x34333231] ∧
    assembleLine "UPDSTR 0, \"1;\"".toList = some [wr .cmd 0x30000031, wr .cmd 0x3000003B] ∧
    assembleLine "COMPUTE 0, 49".toList = some [wr .cmd 0x20000000, wr .cmd 0x30000031, wr .cmd 0x60000000] ∧
    assembleLine "UPDB 0, 256".toList = none := by decide +kernel

/-! ## Witnesses: a state and operands that meet each statement's hypotheses -/

/-- DecodeOfEncodeIsTheInstruction, at the greatest N. -/
theorem witness_well_formed : (Instr.updw 15 4).wellFormed = true := by decide

/-- EncodeOfDecodeIsTheWord, at the greatest CH and N. -/
theorem witness_decodes : decode 0x4F000004 = .ok (.updw 15 4) := by rfl

/-- ReservedOpcodesRaiseOpcodeError, at its least and greatest opcodes. -/
theorem witness_reserved_opcode :
    9 ≤ ((0x90000000 : Word).extractLsb' 28 4).toNat ∧ 9 ≤ ((0xFFFFFFFF : Word).extractLsb' 28 4).toNat := by decide

/-- ReservedBitsRaiseFieldError, at a single reserved bit and at N = 5. -/
theorem witness_reserved_bits :
    (((0x80000001 : Word).extractLsb' 28 4).toNat < 9 ∧ reservedBitsSet 0x80000001 = true) ∧
    (((0x40000005 : Word).extractLsb' 28 4).toNat < 9 ∧ reservedBitsSet 0x40000005 = true) := by decide

/-- EveryOtherWordIsACommand, with every field at its greatest value. -/
theorem witness_other_word :
    ((0x50FFFFFF : Word).extractLsb' 28 4).toNat < 9 ∧ reservedBitsSet 0x50FFFFFF = false ∧
    reservedBitsSet 0x4F000004 = false := by decide

/-- WriteTransactions, clause by clause, each illegal access in its own way. -/
theorem witness_write_transactions :
    (withNext s0 [wr .cmd 0x61000000]).inputs = .transfer (.write 0x00 32 0xF 0x61000000) :: [] ∧
    (withNext s0 [wr .data 7]).inputs = .transfer (.write 0x04 32 0xF 7) :: [] ∧
    ((0x18 : BitVec 5) ∈ [0x08, 0x0C, 0x10, 0x14, (0x18 : BitVec 5)] ∧
      (withNext s0 [wr .param 0]).inputs = .transfer (.write 0x18 32 0xF 0) :: []) ∧
    ((16 ≠ 32 ∨ (0x04 : BitVec 5).toNat % 4 ≠ 0 ∨ (0xF : BitVec 4) ≠ 0xF ∨ (0x04 : BitVec 5) = 0x1C) ∧
      (withNext s0 [.transfer (.write 0x04 16 0xF 0)]).inputs = .transfer (.write 0x04 16 0xF 0) :: []) ∧
    ((32 ≠ 32 ∨ (0x1D : BitVec 5).toNat % 4 ≠ 0 ∨ (0xF : BitVec 4) ≠ 0xF ∨ (0x1D : BitVec 5) = 0x1C) ∧
      (withNext s0 [.transfer (.write 0x1D 32 0xF 0)]).inputs = .transfer (.write 0x1D 32 0xF 0) :: []) ∧
    ((32 ≠ 32 ∨ (0x00 : BitVec 5).toNat % 4 ≠ 0 ∨ (0x7 : BitVec 4) ≠ 0xF ∨ (0x00 : BitVec 5) = 0x1C) ∧
      (withNext s0 [.transfer (.write 0x00 32 0x7 0)]).inputs = .transfer (.write 0x00 32 0x7 0) :: []) ∧
    ((32 ≠ 32 ∨ (0x1C : BitVec 5).toNat % 4 ≠ 0 ∨ (0xF : BitVec 4) ≠ 0xF ∨ (0x1C : BitVec 5) = 0x1C) ∧
      (withNext s0 [.transfer (.write 0x1C 32 0xF 0)]).inputs = .transfer (.write 0x1C 32 0xF 0) :: []) := by
  refine ⟨rfl, rfl, ⟨by decide, rfl⟩, ⟨by decide, rfl⟩, ⟨by decide, rfl⟩, ⟨by decide, rfl⟩, by decide, rfl⟩

/-- StepRunsTheDecodedCommand. -/
theorem witness_step_runs :
    (withNext s1 [wr .cmd 0x61000000]).inputs = .transfer (.write 0x00 32 0xF 0x61000000) :: [] ∧
    decode 0x61000000 = .ok (.final 1) := ⟨rfl, rfl⟩

/-- OnlyIllegalAccessesFault, its last clause. -/
theorem witness_faults : step (withNext s0 [rd .cmd]) = .fault .busError := by rfl

/-- ReadTransactions, clause by clause. -/
theorem witness_read_transactions :
    ((0x18, paramWord s0) ∈ [((0x04 : BitVec 5), s0.data), (0x08, s0.result), (0x0C, s0.status.toWord),
        (0x10, chstatWord s0), (0x14, chvarWord s0), (0x18, paramWord s0)] ∧
      (withNext s0 [rd .param]).inputs = .transfer (.read 0x18 32) :: []) ∧
    (withNext s0 [rd .cmd]).inputs = .transfer (.read 0x00 32) :: [] ∧
    ((64 ≠ 32 ∨ (0x04 : BitVec 5).toNat % 4 ≠ 0 ∨ (0x04 : BitVec 5) = 0x1C) ∧
      (withNext s0 [.transfer (.read 0x04 64)]).inputs = .transfer (.read 0x04 64) :: []) ∧
    ((32 ≠ 32 ∨ (0x1E : BitVec 5).toNat % 4 ≠ 0 ∨ (0x1E : BitVec 5) = 0x1C) ∧
      (withNext s0 [.transfer (.read 0x1E 32)]).inputs = .transfer (.read 0x1E 32) :: []) ∧
    ((32 ≠ 32 ∨ (0x1C : BitVec 5).toNat % 4 ≠ 0 ∨ (0x1C : BitVec 5) = 0x1C) ∧
      (withNext s0 [.transfer (.read 0x1C 32)]).inputs = .transfer (.read 0x1C 32) :: []) := by
  refine ⟨⟨by simp, rfl⟩, rfl, ⟨by decide, rfl⟩, ⟨by decide, rfl⟩, by decide, rfl⟩

/-- RepeatedTransactions: the steps. -/
theorem witness_repeated_steps :
    step (withNext s0 [rd .chstat, rd .chstat]) = .next (after (withNext s0 [rd .chstat, rd .chstat])) ∧
    step (withNext s0 [wr .data 9, wr .data 9]) = .next (after (withNext s0 [wr .data 9, wr .data 9])) := ⟨rfl, rfl⟩

/-- RepeatedTransactions, UpdbCommand, UpdwCommand, FinalCommand and UpdspanMacroFoldsItsBytes: an armed channel. -/
theorem witness_armed_channel :
    s0.chans[(0 : BitVec 4).toNat]? = some (bound .normal true 0xFFFFFFFF) ∧
    (bound .normal true 0xFFFFFFFF).bound = true ∧ (bound .normal true 0xFFFFFFFF).armed = true := ⟨rfl, rfl, rfl⟩

/-- RepeatedTransactions: an accepted FINAL and an accepted TREAD. -/
theorem witness_repeated_results :
    (accepted (.final 1) s1 = true ∧ holds (exec (.final 1) s1) (fun _ => true) = true) ∧
    (accepted (.tread 1 0xFF) s1 = true ∧ holds (exec (.tread 1 0xFF) s1) (fun _ => true) = true) := by decide +kernel

/-- A block of 16 channels: the greatest NCH. -/
def wide : State := { State.reset with chans := List.replicate 16 (bound .mpeg2 true 1) }

/-- ChannelViewsReadTheChannels and ParamReadsTheChannelCount, at the last channel and just past it. -/
theorem witness_views :
    (wide.nch ≤ 16 ∧ wide.chans[15]? = some (bound .mpeg2 true 1)) ∧
    (s0.nch ≤ 16 ∧ s0.nch ≤ 2 ∧ 2 < 16) ∧ (wide.nch ≤ 16 ∧ wide.nch ≤ 16) ∧
    step (withNext wide [rd .param]) = .next (after (withNext wide [rd .param])) := by
  refine ⟨⟨by decide, rfl⟩, by decide, by decide, rfl⟩

/-- IdleBlockStaysAsItWas. -/
theorem witness_idle : s0.inputs = [] := rfl

/-- WindowRoutesItsOffsets, at the window's two ends and just outside them. -/
theorem witness_window : 0 < 32 ∧ 31 < 32 ∧ (0x3F < 0x40 ∨ 0x40 + 32 ≤ 0x3F) ∧ (0x60 < 0x40 ∨ 0x40 + 32 ≤ 0x60) := by
  decide

/-- PowerUpResetValues: the reset state has a channel. -/
theorem witness_reset_channel : ∃ k, k ∈ State.reset.chans := ⟨_, List.mem_cons_self⟩

/-- The least and the greatest channel count (00_scope.md R8). -/
def one : Config.ChannelCount := ⟨1, by decide⟩

def sixteen : Config.ChannelCount := ⟨16, by decide⟩

/-- ChannelCountIsAParameter: a run of the least and of the greatest block, each binding its last channel. -/
theorem witness_block_runs :
    holds (Host.Core.run (block one) 1 { State.powerUp one with inputs := [wr .cmd 0x10000000] })
      (fun t => t.nch == 1 && chstatWord t == 0x1) = true ∧
    holds (Host.Core.run (block sixteen) 2 { State.powerUp sixteen with inputs := [wr .cmd 0x1F000001, rd .param] })
      (fun t => t.response == some (.data 16) && chvarWord t == 0x8000) = true := by decide +kernel

/-- ResetInputGivesTheResetValues, in the middle of a CMD write. -/
theorem witness_reset_input :
    (withNext s1 [.reset (some (.write 0x00 32 0xF 0x10000000)), rd .param]).inputs =
      .reset (some (.write 0x00 32 0xF 0x10000000)) :: [rd .param] := rfl

/-- A legal bound channel that is not armed, or armed right after START. -/
theorem bound_legal (v : Variant) (a : Bool) : (bound v a (initValue v)).Legal :=
  ⟨fun _ => rfl, fun _ => rfl, fun _ => ⟨[], rfl⟩⟩

/-- StepKeepsTheInvariant and ClrerrCommand: a state with an armed channel that meets the invariant, and its step. -/
theorem witness_inv :
    (withNext { State.reset with chans := [bound .normal true (initValue .normal)] } [wr .cmd 0x30000031]).Inv where
  nch_range := ⟨Nat.le_refl 1, Nat.le_of_ble_eq_true rfl⟩
  chans_legal := by
    intro k hk
    have hk : k ∈ [bound .normal true (initValue .normal)] := hk
    rw [List.mem_singleton.1 hk]
    exact bound_legal _ _
  status_legal := ⟨by decide, fun _ => ⟨rfl, rfl, rfl⟩, (fun h => by cases h), (fun h => absurd h (by decide)),
    (fun h => absurd h (by decide))⟩
  result_valid := fun _ => rfl

theorem witness_inv_step :
    step (withNext { State.reset with chans := [bound .normal true (initValue .normal)] } [wr .cmd 0x30000031]) =
      .next (after (withNext { State.reset with chans := [bound .normal true (initValue .normal)] } [wr .cmd 0x30000031])) ∧
    (withNext { State.reset with chans := [bound .normal true (initValue .normal)] } []).status.err = false :=
  ⟨rfl, rfl⟩

/-- UnspecifiedContentsAreNeverObserved: two states that differ in an unspecified CRC and an unspecified TABLE. -/
theorem witness_same_visible :
    (withNext { State.reset with chans := [Channel.atReset 0 (buildTable .normal)] } [wr .cmd 0x10000000]).SameVisible
      (withNext { State.reset with chans := [Channel.atReset 0xDEADBEEF (buildTable .mpeg2)], freeDraws := 7 }
        [wr .cmd 0x10000000]) where
  chans := .cons ⟨rfl, rfl, rfl, (fun h => by cases h), (fun h => by cases h)⟩ .nil
  data := rfl
  result := rfl
  status := rfl
  inputs := rfl
  response := rfl

theorem witness_same_visible_steps :
    step (withNext { State.reset with chans := [Channel.atReset 0 (buildTable .normal)] } [wr .cmd 0x10000000]) =
      .next (after (withNext { State.reset with chans := [Channel.atReset 0 (buildTable .normal)] } [wr .cmd 0x10000000])) ∧
    step (withNext State.reset [rd .cmd]) = .fault .busError := ⟨rfl, rfl⟩

/-- FlagsChangeOnlyAsListed: ERR, EMULT, RVALID, BOUND and ARMED each set and each cleared by a step. -/
theorem witness_flags :
    holds (step (withNext s0 [wr .cmd 0x90000000])) (fun t => !s0.status.err && t.status.err) = true ∧
    holds (step (withNext s0err [wr .cmd 0x80000000])) (fun t => s0err.status.err && !t.status.err) = true ∧
    holds (step (withNext s0err [wr .cmd 0x90000000])) (fun t => !s0err.status.emult && t.status.emult) = true ∧
    holds (step (withNext { s0 with status := { err := true, emult := true, ecode := 1, ech := 0, rvalid := true } }
      [.reset none])) (fun t => !t.status.emult && !t.status.rvalid) = true ∧
    holds (step (withNext s0 [wr .cmd 0x60000000])) (fun t => !s0.status.rvalid && t.status.rvalid) = true := by
  decide +kernel

theorem witness_channel_flags :
    holds (step (withNext State.reset [wr .cmd 0x10000000])) (fun t => t.chans[0]?.any Channel.bound) = true ∧
    holds (step (withNext s0 [.reset none])) (fun t => t.chans[0]?.any fun k => !k.bound && !k.armed) = true ∧
    holds (step (withNext s0 [wr .cmd 0x21000000])) (fun t => t.chans[1]?.any Channel.armed) = true ∧
    holds (step (withNext s0 [wr .cmd 0x10000000])) (fun t => t.chans[0]?.any fun k => !k.armed) = true := by
  decide +kernel

/-- ErrorRecordStaysUntilCleared, its two clauses. -/
theorem witness_error_record :
    (step (withNext s0err [wr .cmd 0x61000000]) = .next (after (withNext s0err [wr .cmd 0x61000000])) ∧
      (withNext s0err [wr .cmd 0x61000000]).status.err = true ∧
      (withNext s0err [wr .cmd 0x61000000]).pending ≠ some .clrerr ∧
      (withNext s0err [wr .cmd 0x61000000]).resetNext = false) ∧
    (step (withNext s0err [wr .cmd 0x80000000]) = .next (after (withNext s0err [wr .cmd 0x80000000])) ∧
      (withNext s0err [wr .cmd 0x80000000]).pending = some .clrerr) ∧
    (withNext s0err [.reset none]).resetNext = true :=
  ⟨⟨rfl, rfl, by decide, rfl⟩, ⟨rfl, rfl⟩, rfl⟩

/-- CleanStatusMeansNoErrorWasRaised. -/
theorem witness_clean_status :
    step (withNext s0 [wr .cmd 0x30000031]) = .next (after (withNext s0 [wr .cmd 0x30000031])) ∧
    (after (withNext s0 [wr .cmd 0x30000031])).status.err = false ∧
    (withNext s0 [wr .cmd 0x30000031]).pending ≠ some .clrerr ∧
    (withNext s0 [wr .cmd 0x30000031]).resetNext = false := ⟨rfl, rfl, by decide, rfl⟩

/-- OnlyTheHostWritesData and OnlyFinalAndTreadWriteResult: steps that write. -/
theorem witness_writers :
    step (withNext s0 [wr .data 9]) = .next (after (withNext s0 [wr .data 9])) ∧
    step (withNext s0 [wr .cmd 0x700000FF]) = .next (after (withNext s0 [wr .cmd 0x700000FF])) := ⟨rfl, rfl⟩

/-- CommandErrorProcedure: ERR clear, ERR set, and a CMD write that raises. -/
theorem witness_error_procedure :
    s0.status.err = false ∧ s0err.status.err = true ∧
    (withNext s0 [wr .cmd 0x90000000]).inputs = .transfer (.write 0x00 32 0xF 0x90000000) :: [] ∧
    Raises 0x90000000 s0 ⟨.opcode, 0⟩ := ⟨rfl, rfl, rfl, .opcode (by decide)⟩

/-- RaisingCommandsChangeOnlyStatus: a command that is not accepted and one that is. -/
theorem witness_accepted : accepted (.final 1) s0 = false ∧ accepted (.final 0) s0 = true := by decide +kernel

/-- No channel above 1 is selected by the mask with bits 0 and 1. -/
theorem mask_below_two (l : Nat) (h : (0x0003 : BitVec 16).getLsbD l = true) : l < 2 := by
  have h16 := BitVec.lt_of_getLsbD h
  interval_cases l <;> revert h <;> decide

/-- FirstFailingCheckIsReported: the checks of decoding and of a single-channel command. -/
theorem witness_raises_single :
    Raises 0x9F000001 s0 ⟨.opcode, 15⟩ ∧ Raises 0x2F000001 s0 ⟨.field, 15⟩ ∧ Raises 0x22000000 s0 ⟨.channel, 2⟩ ∧
    Raises 0x31000031 State.reset ⟨.unbound, 1⟩ ∧ Raises 0x61000000 s0 ⟨.notStarted, 1⟩ :=
  ⟨.opcode (by decide), .field (by decide) (by decide), .channel (.start 2) 2 rfl rfl (by decide),
    .unbound (.updb 1 0x31) 1 _ rfl rfl rfl rfl rfl, .notStarted (.final 1) 1 _ rfl rfl rfl rfl rfl rfl⟩

/-- FirstFailingCheckIsReported and UpdmCommand: the checks of UPDM, at the first and the last channel that can fail. -/
theorem witness_raises_mask :
    Raises 0x50000C31 s0 ⟨.channel, 2⟩ ∧ Raises 0x50000331 State.reset ⟨.unbound, 0⟩ ∧
    Raises 0x50000331 s0 ⟨.notStarted, 1⟩ := by
  refine ⟨.maskChannel 0x000C 0x31 2 rfl rfl (by decide) ?_,
    .maskUnbound 0x0003 0x31 0 _ rfl (fun l h => mask_below_two l h) rfl rfl (by simp) rfl,
    .maskNotStarted 0x0003 0x31 1 (bound .mpeg2 false 0) rfl (fun l h => mask_below_two l h) rfl rfl ?_ rfl rfl⟩
  · intro l hl h
    interval_cases l <;> revert h <;> decide
  · intro l hl _
    interval_cases l
    rfl

/-- FirstFailingCheckIsReported: a word that raises nothing, NOP. -/
theorem witness_raises_nothing (e : CmdError) : ¬ Raises 0x00000000 s0 e := by
  have hd : decode 0x00000000 = .ok .nop := rfl
  intro h
  cases h with
  | opcode h => exact absurd h (by decide)
  | field _ h => exact absurd h (by decide)
  | channel i c h hc => rw [hd] at h; cases h; cases hc
  | unbound i c k h hc => rw [hd] at h; cases h; cases hc
  | notStarted i c k h hc => rw [hd] at h; cases h; cases hc
  | maskChannel m b j h => rw [hd] at h; cases h
  | maskUnbound m b j k h => rw [hd] at h; cases h
  | maskNotStarted m b j k h => rw [hd] at h; cases h

/-- The command statements: a word of each opcode. -/
theorem witness_opcodes :
    (0x00000000 : Word).extractLsb' 28 4 = 0x0#4 ∧ (0x1F000001 : Word).extractLsb' 28 4 = 0x1#4 ∧
    (0x2F000000 : Word).extractLsb' 28 4 = 0x2#4 ∧ (0x3F0000FF : Word).extractLsb' 28 4 = 0x3#4 ∧
    (0x4F000004 : Word).extractLsb' 28 4 = 0x4#4 ∧ (0x50FFFFFF : Word).extractLsb' 28 4 = 0x5#4 ∧
    (0x6F000000 : Word).extractLsb' 28 4 = 0x6#4 ∧ (0x7F0000FF : Word).extractLsb' 28 4 = 0x7#4 ∧
    ((0x80000001 : Word).extractLsb' 28 4 = 0x8#4 ∧ (0x80000001 : Word).extractLsb' 0 28 ≠ 0) := by decide

/-- The command statements: a channel just past the last, the last channel, an unbound channel, a bound channel that is
not armed, and N at 4 and 5. -/
theorem witness_channels :
    s0.nch ≤ (2 : BitVec 4).toNat ∧ wide.chans[(15 : BitVec 4).toNat]? = some (bound .mpeg2 true 1) ∧
    (State.reset.chans[(1 : BitVec 4).toNat]? = some (Channel.atReset 0 (Vector.replicate 256 0)) ∧
      (Channel.atReset 0 (Vector.replicate 256 0)).bound = false) ∧
    (s0.chans[(1 : BitVec 4).toNat]? = some (bound .mpeg2 false 0) ∧ (bound .mpeg2 false 0).bound = true ∧
      (bound .mpeg2 false 0).armed = false) ∧
    (4 : BitVec 3).toNat ≤ 4 ∧ 4 < (5 : BitVec 3).toNat := by
  refine ⟨by decide, rfl, ⟨rfl, rfl⟩, ⟨rfl, rfl, rfl⟩, by decide, by decide⟩

/-- UpdmCommand: every selected channel is armed, for two channels and for none. -/
theorem witness_updm_armed :
    (∀ j, (0x0003 : BitVec 16).getLsbD j = true → ∃ k, s1.chans[j]? = some k ∧ k.bound = true ∧ k.armed = true) ∧
    (∀ j, (0x0000 : BitVec 16).getLsbD j = true → ∃ k, s1.chans[j]? = some k ∧ k.bound = true ∧ k.armed = true) := by
  refine ⟨fun j h => ?_, fun j h => by simp at h⟩
  have := mask_below_two j h
  interval_cases j
  · exact ⟨_, rfl, rfl, rfl⟩
  · exact ⟨_, rfl, rfl, rfl⟩

/-- CommandFrame and CommandsIgnoreOtherChannels: a command that runs, and a channel that it does not select. -/
theorem witness_frame :
    holds (exec (.updb 0 0x31) s1) (fun _ => true) = true ∧ accepted (.updb 0 0x31) s1 = true ∧
    holds (exec (.updm 0x0003 0x31) s1) (fun _ => true) = true ∧
    (Instr.updb 0 0x31).touches 1 = false ∧ (Instr.updm 0x0001 0x31).touches 1 = false := by decide +kernel

/-- UpdwIsTheByteCommandsInOrder, at N = 0 and N = 4. -/
theorem witness_updw_accepted : accepted (.updw 0 0) s0 = true ∧ accepted (.updw 0 4) s0 = true := by decide +kernel

/-- UpdmIsUpdbOnEachChannelInAnyOrder: both channels, in descending order. -/
theorem witness_updm_order :
    accepted (.updm 0x0003 0x31) s1 = true ∧ ([1, 0] : List (BitVec 4)).Nodup ∧
    ∀ c : BitVec 4, c ∈ ([1, 0] : List (BitVec 4)) ↔ (0x0003 : BitVec 16).getLsbD c.toNat = true := by decide +kernel

/-- CommandsOnDifferentChannelsCommute. -/
theorem witness_commute (d : Nat) : ¬ ((Instr.updb 0 1).touches d = true ∧ (Instr.start 1).touches d = true) := by
  simp only [Instr.touches, beq_iff_eq]
  rintro ⟨rfl, h⟩
  exact absurd h (by decide)

/-- Channel 0 bound, with a run to come: START, a byte on channel 0 by UPDM, and FINAL. -/
def streaming : State := withNext s1 [wr .cmd 0x20000000, wr .cmd 0x50000331, wr .cmd 0x60000000]

/-- StreamCutsDoNotMatter, StreamingEqualsOneShot, ComputeMacroGivesTheChecksum and EmptyStreamChecksum: the whole run, with one byte folded between START and FINAL. -/
theorem witness_stream :
    s1.chans[(0 : BitVec 4).toNat]? = some (bound .normal true 0xFFFFFFFF) ∧
    (bound .normal true 0xFFFFFFFF).table = buildTable (bound .normal true 0xFFFFFFFF).variant ∧
    streaming.pending = some (.start 0) ∧ step streaming = .next (after streaming) ∧
    StreamRun 0 (after streaming) [0x31] (after (after streaming)) ∧
    (after (after streaming)).pending = some (.final 0) ∧
    step (after (after streaming)) = .next (after (after (after streaming))) :=
  ⟨rfl, rfl, rfl, rfl, .step (bs := []) (t := after (after streaming)) rfl rfl (.refl _), rfl, rfl⟩

/-- Channel 0 armed, with two FINAL to come and a byte on channel 1 between them. -/
def finals : State := withNext s1 [wr .cmd 0x60000000, wr .cmd 0x31000031, wr .cmd 0x60000000]

/-- FinalizeIsIdempotent. -/
theorem witness_finals :
    accepted (.final 0) finals = true ∧ finals.pending = some (.final 0) ∧ step finals = .next (after finals) ∧
    StreamRun 0 (after finals) [] (after (after finals)) ∧ (after (after finals)).pending = some (.final 0) ∧
    step (after (after finals)) = .next (after (after (after finals))) :=
  ⟨rfl, rfl, rfl, .step (bs := []) (t := after (after finals)) rfl rfl (.refl _), rfl, rfl⟩

/-- BootMacroBindsBothVariants, at the least NCH it needs. -/
theorem witness_boot : 2 ≤ State.reset.nch := by decide

/-- IllFormedUpdwActsAsItsWord, at the least and the greatest N above 4. -/
theorem witness_ill_formed_updw : 4 < (5 : BitVec 3).toNat ∧ 4 < (7 : BitVec 3).toNat := by decide

end Sys2Proof.Tests
end

section
/-! PROOFS about the scope of the block (00_scope.md): what a run keeps, and the channels that a block has. -/

namespace Sys2Proof.Machine

/-- What every step keeps, every run keeps. -/
theorem run_keeps {M : Host.Core} {P : M.State → Prop} (hstep : ∀ {s t}, P s → M.step s = .next t → P t) :
    ∀ {steps : Nat} {s t : M.State}, P s → M.run steps s = .next t → P t
  | 0, s, t, hs, hrun => by
    cases hrun
    exact hs
  | steps + 1, s, t, hs, hrun => by
    rw [Host.Core.run] at hrun
    split at hrun
    next u hu => exact run_keeps hstep (hstep hs hu) hrun
    next => cases hrun
    next => cases hrun

/-- No run changes the number of channels (00_scope.md R8, 10_state.md R41). -/
theorem run_block_nch {n : Config.ChannelCount} {steps : Nat} {s t : State}
    (h : (block n).run steps s = .next t) : t.nch = s.nch :=
  run_keeps (M := block n) (P := fun u : State => u.nch = s.nch) (fun hu hstep => (step_nch hstep).trans hu) rfl h

/-- A block's channels are those numbered below its NCH (00_scope.md R8). -/
theorem exists_channel_iff (s : State) (c : Nat) : (∃ k, s.chans[c]? = some k) ↔ c < s.nch := by
  rw [← Option.isSome_iff_exists]
  simp [State.nch]

/-- The channel counts are 1 to 16 (00_scope.md R8). -/
theorem exists_channelCount_iff (m : Nat) : (∃ n : Config.ChannelCount, n.val = m) ↔ 1 ≤ m ∧ m ≤ 16 :=
  ⟨fun ⟨n, hn⟩ => hn ▸ n.property, fun h => ⟨⟨m, h⟩, rfl⟩⟩

/-- Settles O57: no step changes the number of channels, so a run keeps that of power-up. -/
theorem channelCountIsAParameter : Obligations.ChannelCountIsAParameter := by
  refine ⟨exists_channelCount_iff, rfl, State.reset_eq_powerUp, fun n es steps t h => ?_⟩
  have hnch : t.nch = n.val := (run_block_nch h).trans (State.powerUp_nch n)
  exact ⟨hnch, fun c => hnch ▸ exists_channel_iff t c⟩

end Sys2Proof.Machine
end

section
/-! PROOFS about the state of the block (10_state.md): PARAM, the values after power-up, the variants, and the
channels that a command does not select. -/

namespace Sys2Proof.Machine

/-! ## PARAM (R41) -/

/-- PARAM depends on the number of channels alone. -/
theorem paramWord_eq (s : State) : paramWord s = (BitVec.ofNat 5 s.nch).zeroExtend 32 := rfl

/-- Read as a number, PARAM is NCH, which its 5 bits hold. -/
theorem paramWord_toNat {s : State} (h : s.nch ≤ 16) : (paramWord s).toNat = s.nch := by
  have h5 : s.nch < 2 ^ 5 := by omega
  rw [paramWord_eq, BitVec.zeroExtend_eq_setWidth, BitVec.toNat_setWidth_of_le (by decide), BitVec.toNat_ofNat,
    Nat.mod_eq_of_lt h5]

/-- Settles O14: PARAM is a function of NCH, which no step changes. -/
theorem paramReadsTheChannelCount : Obligations.ParamReadsTheChannelCount := by
  intro s h
  have hv := paramWord_toNat h
  refine ⟨?_, BitVec.eq_of_toNat_eq ?_, fun t ht => ?_⟩
  · rw [BitVec.extractLsb'_toNat, hv, Nat.shiftRight_zero]
    exact Nat.mod_eq_of_lt (by omega)
  · rw [BitVec.extractLsb'_toNat, hv, Nat.shiftRight_eq_div_pow, Nat.div_eq_of_lt (by omega)]
    rfl
  · rw [paramWord_eq, paramWord_eq, step_nch ht]

/-! ## The values after power-up (R43) -/

/-- A flag that no channel has reads 0 in the view of that flag. -/
theorem channelBits_eq_zero {f : Channel → Bool} {ks : List Channel} (h : ∀ k ∈ ks, f k = false) (n : Nat) :
    channelBits f n ks = 0 := by
  induction ks generalizing n with
  | nil => rfl
  | cons k ks ih =>
    obtain ⟨hk, hks⟩ := List.forall_mem_cons.1 h
    rw [channelBits, hk, ih hks]
    simp [flagBit]

/-- Every channel after power-up is as reset leaves it, with the contents 0 of log entry 2. -/
theorem eq_atReset_of_mem_powerUp {n : Config.ChannelCount} {k : Channel} (h : k ∈ (State.powerUp n).chans) :
    k = Channel.atReset 0 (Vector.replicate 256 0) := by
  rw [State.powerUp_chans] at h
  exact List.eq_of_mem_replicate h

/-- STATUS after reset reads 0 (R38, R43). -/
theorem Status.atReset_toWord : Status.atReset.toWord = 0 := by decide

/-- Settles O17: each channel is as reset leaves it, so the views CHSTAT and CHVAR have no bit set. -/
theorem powerUpResetValues : Obligations.PowerUpResetValues := by
  refine ⟨State.reset_eq_powerUp, fun n => ?_⟩
  have hchans : ∀ k ∈ (State.powerUp n).chans, k.variant = .normal ∧ k.bound = false ∧ k.armed = false := by
    intro k hk
    rw [eq_atReset_of_mem_powerUp hk]
    exact ⟨rfl, rfl, rfl⟩
  have hbound := channelBits_eq_zero (f := Channel.bound) (fun k hk => (hchans k hk).2.1) 0
  have harmed := channelBits_eq_zero (f := Channel.armed) (fun k hk => (hchans k hk).2.2) 16
  refine ⟨State.powerUp_nch n, hchans, rfl, rfl, Status.atReset_toWord, rfl, ?_, ?_, ?_⟩
  · rw [chstatWord, hbound, harmed]
    rfl
  · exact channelBits_eq_zero (fun k hk => by simp [(hchans k hk).1]) 0
  · rw [paramWord_toNat, State.powerUp_nch]
    exact (State.powerUp_nch n).trans_le n.property.2

/-! ## The variants (R20) -/

/-- Settles O45: each constant is the value the model's table of variants lists. -/
theorem variantConstants : Obligations.VariantConstants := by
  refine ⟨fun v => ?_, rfl, rfl, rfl, rfl, rfl, rfl, rfl, rfl, rfl, rfl⟩
  cases v with
  | normal => exact .inl rfl
  | mpeg2 => exact .inr rfl

/-! ## Channels that are not selected (R29) -/

section
variable {s t : State} {d : Nat} {k : Channel} {c : BitVec 4} {m : BitVec 16}

/-- The E_CHANNEL check reads its own channel alone. -/
theorem requireChannel_setChannel (h : c.toNat ≠ d) : (s.setChannel d k).requireChannel c = s.requireChannel c := by
  simp [State.requireChannel, State.channel?, List.getElem?_set_ne h.symm]

/-- The checks down to E_UNBOUND read their own channel alone. -/
theorem requireBound_setChannel (h : c.toNat ≠ d) : (s.setChannel d k).requireBound c = s.requireBound c := by
  rw [State.requireBound, State.requireBound, requireChannel_setChannel h]

/-- The checks down to E_NOTSTARTED read their own channel alone. -/
theorem requireArmed_setChannel (h : c.toNat ≠ d) : (s.setChannel d k).requireArmed c = s.requireArmed c := by
  rw [State.requireArmed, State.requireArmed, requireBound_setChannel h]

/-- The scan of UPDM passes over a channel that the mask does not select. -/
theorem scanSelected_set {ks : List Channel} {j : Nat} (h : selects m (j + d) = false) :
    scanSelected m j (ks.set d k) = scanSelected m j ks := by
  induction ks generalizing j d with
  | nil => rfl
  | cons l ks ih =>
    cases d with
    | zero =>
      rw [Nat.add_zero] at h
      simp [scanSelected, h]
    | succ d => rw [List.set_cons_succ, scanSelected, scanSelected, ih (by rwa [Nat.add_right_comm])]

/-- The checks of UPDM read the selected channels alone. -/
theorem requireSelected_setChannel (h : selects m d = false) :
    (s.setChannel d k).requireSelected m = s.requireSelected m := by
  have hscan : scanSelected m 0 (s.chans.set d k) = scanSelected m 0 s.chans :=
    scanSelected_set (by rwa [Nat.zero_add])
  rw [State.requireSelected, State.requireSelected, State.setChannel_nch, State.setChannel_chans, hscan]

/-- Writes to two channels can be exchanged. -/
theorem setChannel_comm {c : Nat} (h : c ≠ d) (l : Channel) :
    (s.setChannel d k).setChannel c l = (s.setChannel c l).setChannel d k := by
  simp [State.setChannel, List.set_comm k l h.symm]

/-- The fold of UPDM and a write to a channel that it does not select can be exchanged. -/
theorem foldSelected_setChannel (h : selects m d = false) (b : Byte) :
    (s.setChannel d k).foldSelected m b = (s.foldSelected m b).setChannel d k := by
  simp [State.setChannel, State.foldSelected, List.mapIdx_set, h]

/-- A command whose check answers the same, and whose effect is the same on the rest, with `k` in channel `d`, ends with
`k` in channel `d` and the rest the same. -/
theorem finish_map_setChannel {α : Type} {r r' : Except CmdError α} {f g : α → State} (hr : r' = r)
    (hfg : ∀ a, g a = (f a).setChannel d k) (h : s.finish (r.map f) = .next t) :
    (s.setChannel d k).finish (r'.map g) = .next (t.setChannel d k) := by
  subst hr
  cases r' with
  | ok a =>
    cases h
    exact congrArg Host.Outcome.next (hfg a)
  | error e =>
    cases h
    rfl

/-- A command does the same to the rest whatever a channel that it does not select holds. -/
theorem exec_setChannel {i : Instr} (hd : i.touches d = false) (h : exec i s = .next t) :
    exec i (s.setChannel d k) = .next (t.setChannel d k) := by
  cases i with
  | nop =>
    cases h
    rfl
  | clrerr =>
    cases h
    rfl
  | init c v =>
    have hc : c.toNat ≠ d := beq_eq_false_iff_ne.1 hd
    exact finish_map_setChannel (requireChannel_setChannel hc) (fun _ => setChannel_comm hc _) h
  | start c =>
    have hc : c.toNat ≠ d := beq_eq_false_iff_ne.1 hd
    exact finish_map_setChannel (requireBound_setChannel hc) (fun _ => setChannel_comm hc _) h
  | updb c b =>
    have hc : c.toNat ≠ d := beq_eq_false_iff_ne.1 hd
    exact finish_map_setChannel (requireArmed_setChannel hc) (fun _ => setChannel_comm hc _) h
  | updw c n =>
    have hc : c.toNat ≠ d := beq_eq_false_iff_ne.1 hd
    simp only [exec, execUpdw] at h ⊢
    split at h
    next hn =>
      cases h
      rw [if_pos hn]
      rfl
    next hn =>
      rw [if_neg hn]
      exact finish_map_setChannel (requireArmed_setChannel hc) (fun _ => setChannel_comm hc _) h
  | updm m b => exact finish_map_setChannel (requireSelected_setChannel hd) (fun _ => foldSelected_setChannel hd b) h
  | final c =>
    have hc : c.toNat ≠ d := beq_eq_false_iff_ne.1 hd
    exact finish_map_setChannel (requireArmed_setChannel hc) (fun _ => rfl) h
  | tread c x =>
    have hc : c.toNat ≠ d := beq_eq_false_iff_ne.1 hd
    exact finish_map_setChannel (requireBound_setChannel hc) (fun _ => rfl) h

/-- A command has its effect, or it changes no channel. -/
theorem effect_or_chans_eq {i : Instr} (h : exec i s = .next t) : Effect s i t ∨ t.chans = s.chans := by
  obtain ⟨u, hu, ⟨-, he⟩ | ⟨-, e, rfl, -⟩⟩ := exec_effect_or_error i s
  · rw [hu] at h
    cases h
    exact .inl he
  · rw [hu] at h
    cases h
    exact .inr rfl

/-- A command leaves a channel that it does not select as it was. -/
theorem exec_chans_of_not_touches {i : Instr} (hd : i.touches d = false) (h : exec i s = .next t) :
    t.chans[d]? = s.chans[d]? := by
  rcases effect_or_chans_eq h with he | hs
  · cases hk : s.chans[d]? with
    | some k =>
      obtain ⟨l, hl, hstay, -⟩ := effect_channel he d k hk
      rw [hl, hstay hd]
    | none =>
      rw [List.getElem?_eq_none_iff] at hk ⊢
      exact (effect_nch he).trans_le hk
  · rw [hs]

/-- UPDM leaves a channel as it was, or folds the byte into a selected one by that channel's own items. -/
theorem exec_updm_chans {b : Byte} (h : exec (.updm m b) s = .next t) (hk : s.chans[d]? = some k) :
    t.chans[d]? = some k ∨
      m.getLsbD d = true ∧ t.chans[d]? = some { k with crc := fold k.variant k.table k.crc b } := by
  rcases effect_or_chans_eq h with he | hs
  · obtain ⟨l, hl, hstay, hfold⟩ := effect_channel he d k hk
    cases hm : m.getLsbD d with
    | false => exact .inl (by rw [hl, hstay hm])
    | true =>
      obtain ⟨-, -, rfl⟩ := hfold hm
      exact .inr ⟨rfl, hl⟩
  · exact .inl (by rw [hs, hk])

end

/-- Settles O43: the checks and the effect of a command read and write only the channels it selects. -/
theorem commandsIgnoreOtherChannels : Obligations.CommandsIgnoreOtherChannels :=
  ⟨fun _ _ _ _ _ hd h => ⟨exec_chans_of_not_touches hd h, exec_setChannel hd h⟩,
    fun _ _ _ _ _ _ h hk => exec_updm_chans h hk⟩

end Sys2Proof.Machine
end

section
/-! PROOFS about the register window (20_memory.md): which transactions are bus errors, what a write transaction does,
and what a read transaction returns. -/

namespace Sys2Proof.Machine

/-! ## The registers of the window (R61, R66, R67) -/

/-- The multiples of 4 below the reserved offset are the registers' offsets, which leaves no hole in the window (R61,
R67). -/
theorem exists_regOffset_of_aligned {off : BitVec 5} (halign : off.toNat % 4 = 0) (hres : off ≠ 0x1C) :
    ∃ r, off = regOffset r := by
  have htable : ∀ o : BitVec 5, o.toNat % 4 = 0 → o ≠ 0x1C →
      o ∈ [Reg.cmd, .data, .result, .status, .chstat, .chvar, .param].map regOffset := by decide
  obtain ⟨r, -, hr⟩ := List.mem_map.1 (htable off halign hres)
  exact ⟨r, hr.symm⟩

/-- The access checks pass exactly a 32-bit transfer at the offset of a register (R66, R67). -/
theorem accessLegal_iff {off : BitVec 5} {bits : Nat} :
    accessLegal off bits = true ↔ bits = 32 ∧ ∃ r, off = regOffset r := by
  constructor
  · intro h
    simp only [accessLegal, Bool.and_eq_true, beq_iff_eq, bne_iff_ne] at h
    obtain ⟨⟨hbits, halign⟩, hres⟩ := h
    exact ⟨hbits, exists_regOffset_of_aligned halign hres⟩
  · rintro ⟨rfl, r, rfl⟩
    cases r <;> rfl

/-- A read is illegal exactly when it fails the access checks or names CMD (R64). -/
theorem illegalTransfer_read (off : BitVec 5) (bits : Nat) :
    illegalTransfer (.read off bits) = (!accessLegal off bits || off == regOffset .cmd) := by
  simp [illegalTransfer, accessLegal, bne]

/-- A write is illegal exactly when it fails the access checks, is not a whole word, or names a read-only register
(R64). -/
theorem illegalTransfer_write (off : BitVec 5) (bits : Nat) (strobes : BitVec 4) (v : Word) :
    illegalTransfer (.write off bits strobes v) = (!(accessLegal off bits && strobes == 0xF) ||
      [Reg.result, .status, .chstat, .chvar, .param].any fun r => off == regOffset r) := by
  simp only [illegalTransfer, accessLegal, bne, Bool.not_and, Bool.not_not]

/-! ## Which transactions are bus errors (R64, R66, R67) -/

/-- A transaction is a bus error when it is illegal, and answers a next state when it is legal. -/
theorem performTransfer_cases (tr : Transfer) (s : State) :
    (illegalTransfer tr = true ∧ performTransfer tr s = .fault .busError) ∨
    (illegalTransfer tr = false ∧ ∃ t, performTransfer tr s = .next t) := by
  cases tr with
  | read off bits =>
    rw [illegalTransfer_read]
    cases hl : accessLegal off bits with
    | false => exact .inl ⟨rfl, by simp [performTransfer, busRead, hl]⟩
    | true =>
      obtain ⟨rfl, r, rfl⟩ := accessLegal_iff.1 hl
      cases r with
      | cmd => exact .inl ⟨rfl, rfl⟩
      | data | result | status | chstat | chvar | param => exact .inr ⟨rfl, _, rfl⟩
  | write off bits strobes v =>
    rw [illegalTransfer_write]
    cases hl : accessLegal off bits && strobes == 0xF with
    | false => exact .inl ⟨rfl, by simp only [performTransfer, busWrite, hl, Bool.false_eq_true, if_false, respond]⟩
    | true =>
      obtain ⟨ha, hs⟩ := Bool.and_eq_true_iff.1 hl
      obtain ⟨rfl, r, rfl⟩ := accessLegal_iff.1 ha
      obtain rfl := beq_iff_eq.1 hs
      cases r with
      | cmd =>
        obtain ⟨t, ht⟩ := performCommand_total v s
        exact .inr ⟨rfl, _, congrArg (respond .done) ht⟩
      | data => exact .inr ⟨rfl, _, rfl⟩
      | result | status | chstat | chvar | param => exact .inl ⟨rfl, rfl⟩

variable {s : State}

/-- A step with a transaction to come performs it (R70). -/
theorem step_transfer {tr : Transfer} {rest : List HostEvent} (h : s.inputs = .transfer tr :: rest) :
    step s = performTransfer tr { s with inputs := rest } := by
  simp [step, h, performEvent]

/-- An illegal transaction stops the step with a bus error. -/
theorem step_illegal {tr : Transfer} {rest : List HostEvent} (h : s.inputs = .transfer tr :: rest)
    (hill : illegalTransfer tr = true) : step s = .fault .busError := by
  rw [step_transfer h]
  obtain ⟨-, hf⟩ | ⟨hleg, -⟩ := performTransfer_cases tr { s with inputs := rest }
  · exact hf
  · cases hill.symm.trans hleg

/-- A step stops with a bus error at an illegal transaction, and otherwise has a next state. -/
theorem step_fault_or_next (s : State) :
    (step s = .fault .busError ∧ ∃ tr rest, s.inputs = .transfer tr :: rest ∧ illegalTransfer tr = true) ∨
    ∃ t, step s = .next t := by
  cases hin : s.inputs with
  | nil => exact .inr ⟨s, step_idle hin⟩
  | cons e rest =>
    cases e with
    | reset a => exact .inr ⟨_, step_reset hin⟩
    | transfer tr =>
      rw [step_transfer hin]
      obtain ⟨hill, hf⟩ | ⟨-, hnext⟩ := performTransfer_cases tr { s with inputs := rest }
      · exact .inl ⟨hf, tr, rest, rfl, hill⟩
      · exact .inr hnext

/-- Settles O9: a step faults at an illegal transaction or has a next state, so it faults nowhere else and never
refuses. -/
theorem onlyIllegalAccessesFault : Obligations.OnlyIllegalAccessesFault := by
  intro s
  refine ⟨⟨fun hf => ?_, fun ⟨_, _, hin, hill⟩ => step_illegal hin hill⟩, fun r hr => ?_, fun _ => rfl⟩
  · obtain ⟨-, hex⟩ | ⟨t, ht⟩ := step_fault_or_next s
    · exact hex
    · cases hf.symm.trans ht
  · obtain ⟨hf, -⟩ | ⟨t, ht⟩ := step_fault_or_next s
    · cases hr.symm.trans hf
    · cases hr.symm.trans ht

/-! ## Write transactions (R63) -/

/-- Settles O7: a CMD write completes because every command word answers a next state; the writes that R63 calls bus
errors are illegal transactions. -/
theorem writeTransactions : Obligations.WriteTransactions := by
  intro s rest v
  refine ⟨fun h => ⟨step_command h, ?_⟩, step_data, fun off hoff h => step_illegal h ?_,
    fun off bits strobes hbad h => step_illegal h ?_⟩
  · obtain ⟨t, ht⟩ := performCommand_total v { s with inputs := rest }
    exact ⟨_, by rw [step_command h, ht, respond_next]⟩
  · have hreadOnly : [Reg.result, .status, .chstat, .chvar, .param].any (fun r => off == regOffset r) = true := by
      simpa [regOffset] using hoff
    rw [illegalTransfer_write, hreadOnly, Bool.or_true]
  · simp only [illegalTransfer, Bool.or_eq_true, bne_iff_ne, beq_iff_eq]
    tauto

/-! ## Read transactions (R62) -/

/-- A read that returns a value takes its event off the inputs, answers the value and changes nothing else. -/
theorem step_read {off : BitVec 5} {bits : Nat} {v : Word} {rest : List HostEvent}
    (h : s.inputs = .transfer (.read off bits) :: rest) (hv : busRead { s with inputs := rest } off bits = .ok v) :
    step s = .next { s with inputs := rest, response := some (.data v) } := by
  simp [step_transfer h, performTransfer, hv]

/-- The value that a whole-word read of a readable register returns (R61, R62). -/
theorem busRead_of_mem {off : BitVec 5} {v : Word}
    (h : (off, v) ∈ [((0x04 : BitVec 5), s.data), (0x08, s.result), (0x0C, s.status.toWord), (0x10, chstatWord s),
      (0x14, chvarWord s), (0x18, paramWord s)]) : busRead s off 32 = .ok v := by
  simp only [List.mem_cons, Prod.mk.injEq, List.not_mem_nil, or_false] at h
  obtain ⟨rfl, rfl⟩ | ⟨rfl, rfl⟩ | ⟨rfl, rfl⟩ | ⟨rfl, rfl⟩ | ⟨rfl, rfl⟩ | ⟨rfl, rfl⟩ := h <;> rfl

/-- Settles O10: a readable register's read returns its value, which does not depend on the events to come; the other
reads are illegal transactions. -/
theorem readTransactions : Obligations.ReadTransactions := by
  intro s rest
  refine ⟨fun off v hv h => step_read h (busRead_of_mem hv), fun h => step_illegal h rfl,
    fun off bits hbad h => step_illegal h ?_⟩
  simp only [illegalTransfer, Bool.or_eq_true, bne_iff_ne, beq_iff_eq]
  tauto

end Sys2Proof.Machine
end

section
/-! PROOFS about the encoding (30_encoding.md): the words that raise E_OPCODE, and those that raise E_FIELD. -/

namespace Sys2Proof.Machine

variable {w : Word} {s : State} {row : OpRow}

/-- A word that does not decode takes its decoding error and does nothing else (60_exceptions.md R183). -/
theorem performCommand_of_decode_error {e : CmdError} (h : decode w = .error e) :
    performCommand w s = .next { s with status := s.status.recordError e } := by
  rw [performCommand, h]
  rfl

/-! ## Reserved opcodes (R98) -/

/-- A reserved opcode has no row in the opcode map. -/
theorem decode_reserved_opcode (h : 9 ≤ (w.extractLsb' 28 4).toNat) :
    decode w = .error ⟨.opcode, w.extractLsb' 24 4⟩ := by
  have hrow : Decode.rowOf (Decode.op w) = none := rowOf_reserved h
  rw [decode, hrow]
  rfl

/-- Settles O4: the opcode map has no row for the word, so it is not decoded and only STATUS is written. -/
theorem reservedOpcodesRaiseOpcodeError : Obligations.ReservedOpcodesRaiseOpcodeError :=
  fun _ _ h => ⟨decode_reserved_opcode h, performCommand_of_decode_error (decode_reserved_opcode h)⟩

/-! ## Reserved bits, and UPDW with N above 4 (R99) -/

/-- The word fails a check that follows the opcode's (R93, R96): its row's match under the mask, or the bound on N. -/
def FailsRow (w : Word) (row : OpRow) : Prop :=
  w &&& row.mask = row.pattern → row.op = 0x4 ∧ 4 < (Decode.slice w 0 3).toNat

/-- A word with a defined opcode that fails a check of its row raises E_FIELD. -/
theorem decode_of_failsRow (hrow : Decode.rowOf (Decode.op w) = some row) (hfail : FailsRow w row) :
    decode w = .error ⟨.field, w.extractLsb' 24 4⟩ := by
  rw [decode, hrow]
  by_cases hmatch : w &&& row.mask = row.pattern
  · simp only [hmatch, ne_eq, not_true_eq_false, if_false]
    exact if_pos (hfail hmatch)
  · exact if_pos hmatch

/-- A field that the mask keeps whole and the match has at 0 must be 0 in a word that agrees with the row (R92). -/
theorem failsRow_of_field_ne_zero {lo width : Nat} (hmask : row.mask.extractLsb' lo width = BitVec.allOnes width)
    (hpattern : row.pattern.extractLsb' lo width = 0) (h : (w.extractLsb' lo width != 0) = true) : FailsRow w row := by
  intro hmatch
  refine absurd ?_ (bne_iff_ne.1 h)
  calc w.extractLsb' lo width
      = (w &&& row.mask).extractLsb' lo width := by rw [BitVec.extractLsb'_and, hmask, BitVec.and_allOnes]
    _ = 0 := by rw [hmatch, hpattern]

/-- A reserved bit at 1, or N in 5..7 in UPDW, fails a check of the opcode's row. -/
theorem exists_failsRow_of_reservedBitsSet (hop : (w.extractLsb' 28 4).toNat < 9) (h : reservedBitsSet w = true) :
    ∃ row, Decode.rowOf (Decode.op w) = some row ∧ FailsRow w row := by
  rw [reservedBitsSet] at h
  rw [Decode.op, Decode.slice]
  generalize w.extractLsb' 28 4 = o at hop h ⊢
  obtain ⟨n, hn⟩ := o
  replace hop : n < 9 := hop
  interval_cases n
  -- UPDW, the one format with a second way to fail
  pick_goal 5
  · obtain hbit | hcount := Bool.or_eq_true_iff.1 h
    · exact ⟨_, rfl, failsRow_of_field_ne_zero rfl rfl hbit⟩
    · exact ⟨_, rfl, fun _ => ⟨rfl, of_decide_eq_true hcount⟩⟩
  all_goals exact ⟨_, rfl, failsRow_of_field_ne_zero rfl rfl h⟩

/-- Settles O5: the word has a row and fails it, so it is not decoded and only STATUS is written. -/
theorem reservedBitsRaiseFieldError : Obligations.ReservedBitsRaiseFieldError := by
  intro w s hop h
  obtain ⟨row, hrow, hfail⟩ := exists_failsRow_of_reservedBitsSet hop h
  have hd := decode_of_failsRow hrow hfail
  exact ⟨hd, performCommand_of_decode_error hd⟩

end Sys2Proof.Machine
end

section
/-! PROOFS about the table builder (40_table_builder.md): INIT (R124) and TREAD (R125). The lemmas on the words of an
opcode, and on a command that ends by its check, speak of every command. -/

namespace Sys2Proof.Machine

/-! ## The words of an opcode with a reserved field (30_encoding.md R92, R96, R99) -/

section
variable {w : Word} {o : BitVec 4} {row : OpRow} {lo width : Nat}

/-- Masking one field of a word keeps that field in its place. -/
theorem and_place_allOnes (w : Word) (lo width : Nat) :
    w &&& Decode.place (BitVec.allOnes width) lo = Decode.place (w.extractLsb' lo width) lo := by
  apply BitVec.eq_of_getLsbD_eq
  intro j hj
  rw [BitVec.getLsbD_and, place_getLsbD, place_getLsbD, BitVec.getLsbD_extractLsb', BitVec.getLsbD_allOnes]
  by_cases hlo : lo ≤ j
  · simp [hj, hlo, Nat.add_sub_cancel' hlo, Bool.and_comm]
  · simp [hlo]

/-- The row of the opcode map checks the opcode and the reserved field of `width` bits from bit `lo` up, and no other
bit. -/
structure ReservesField (row : OpRow) (lo width : Nat) : Prop where
  mask    : row.mask = Decode.place (BitVec.allOnes 4) 28 ||| Decode.place (BitVec.allOnes width) lo
  pattern : row.pattern = Decode.place row.op 28
  fits    : lo + width ≤ 28

/-- The row that an opcode selects is a row of that opcode. -/
theorem op_of_rowOf (h : Decode.rowOf o = some row) : row.op = o := by
  simpa using List.find?_some h

/-- A word agrees with the row of its opcode exactly when the reserved field is 0. -/
theorem matches_iff_reserved_eq_zero (hop : w.extractLsb' 28 4 = o) (hrow : Decode.rowOf o = some row)
    (hres : ReservesField row lo width) : w &&& row.mask = row.pattern ↔ w.extractLsb' lo width = 0 := by
  have hmasked : w &&& row.mask = Decode.place row.op 28 ||| Decode.place (w.extractLsb' lo width) lo := by
    rw [hres.mask, BitVec.and_or_distrib_left, and_place_allOnes, and_place_allOnes, op_of_rowOf hrow, hop]
  rw [hmasked, hres.pattern]
  constructor
  · intro h
    apply BitVec.eq_of_getLsbD_eq
    intro j hj
    have hfits := hres.fits
    have hbit := congrArg (BitVec.getLsbD · (lo + j)) h
    simp only [BitVec.getLsbD_or, place_getLsbD] at hbit
    simpa [show lo + j < 32 by omega, show ¬ 28 ≤ lo + j by omega, hj] using hbit
  · intro h
    rw [h]
    simp [Decode.place]

/-- A word of an opcode with a reserved field, UPDW apart, is its command when the field is 0; else it raises
E_FIELD. -/
theorem decode_of_reservesField (hop : w.extractLsb' 28 4 = o) (hrow : Decode.rowOf o = some row)
    (hres : ReservesField row lo width) (hupdw : o ≠ 0x4) :
    decode w = if w.extractLsb' lo width = 0 then .ok (row.read w) else .error ⟨.field, w.extractLsb' 24 4⟩ := by
  have hmatch := matches_iff_reserved_eq_zero hop hrow hres
  obtain rfl : Decode.op w = o := hop
  split
  next h =>
    have hnot : ¬ row.op = 0x4 := (op_of_rowOf hrow).trans_ne hupdw
    simp only [decode, hrow, hmatch.2 h, ne_eq, not_true_eq_false, if_false, hnot, false_and]
  next h => exact decode_of_failsRow hrow fun hm => absurd (hmatch.1 hm) h

end

/-- The variant of the VAR bit of a word (R95). -/
theorem variantOf_slice_one (w : Word) (lo : Nat) :
    Decode.variantOf (Decode.slice w lo 1) = if w.getLsbD lo then .mpeg2 else .normal := by
  have hbit : Decode.slice w lo 1 = BitVec.ofBool (w.getLsbD lo) := by
    apply BitVec.eq_of_getLsbD_eq
    intro j hj
    obtain rfl := Nat.lt_one_iff.1 hj
    rw [slice_getLsbD]
    simp
  rw [hbit]
  cases w.getLsbD lo <;> rfl

/-! ## A command ends by what its check answers (60_exceptions.md R182, R183) -/

section
variable {α : Type} {s : State} {r : Except CmdError α} {f : α → State}

/-- A command whose check raises records the error in STATUS and writes nothing else. -/
theorem finish_map_error {e : CmdError} (h : r = .error e) :
    s.finish (r.map f) = .next { s with status := s.status.recordError e } := by
  rw [h]
  rfl

/-- A command whose check passes has its effect. -/
theorem finish_map_ok {a : α} (h : r = .ok a) : s.finish (r.map f) = .next (f a) := by
  rw [h]
  rfl

end

section
variable {s : State} {c : BitVec 4} {k : Channel}

/-- The check of a bound channel raises E_UNBOUND on one that is not. -/
theorem requireBound_unbound (h : s.chans[c.toNat]? = some k) (hb : k.bound = false) :
    s.requireBound c = .error ⟨.unbound, c⟩ := by
  simp [requireBound_some h, hb]

/-- The check of a bound channel answers the channel. -/
theorem requireBound_ok (h : s.chans[c.toNat]? = some k) (hb : k.bound = true) : s.requireBound c = .ok k := by
  simp [requireBound_some h, hb]

end

/-! ## INIT (R124) and TREAD (R125) -/

/-- Settles O33: its row reserves bits 23:1; the E_CHANNEL check is the only one, and the command ends by it. -/
theorem initCommand : Obligations.InitCommand := by
  refine ⟨fun w hw => ?_, fun s c v hc => finish_map_error (requireChannel_none (List.getElem?_eq_none hc)),
    fun s c v k hk => finish_map_ok (requireChannel_some hk)⟩
  rw [← variantOf_slice_one]
  exact decode_of_reservesField hw rfl ⟨by decide, by decide, by decide⟩ (by decide)

/-- Settles O34: its row reserves bits 23:8; the checks are E_CHANNEL and then E_UNBOUND, and the command ends by
them. -/
theorem treadCommand : Obligations.TreadCommand :=
  ⟨fun w hw => decode_of_reservesField hw rfl ⟨by decide, by decide, by decide⟩ (by decide),
    fun s c x hc => finish_map_error (requireBound_none (List.getElem?_eq_none hc)),
    fun s c x k hk hb => finish_map_error (requireBound_unbound hk hb),
    fun s c x k hk hb => finish_map_ok (requireBound_ok hk hb)⟩

end Sys2Proof.Machine
end

section
/-! PROOFS about the accumulator (41_accumulator.md): START (R144), UPDB (R145), UPDW (R146), UPDM (R147), FINAL (R150)
and the host's rendering of a result (R156). -/

namespace Sys2Proof.Machine

/-! ## The check of an armed channel (60_exceptions.md R182) -/

section
variable {s : State} {c : BitVec 4} {k : Channel}

/-- The check of an armed channel raises E_UNBOUND on one that is not bound. -/
theorem requireArmed_unbound (h : s.chans[c.toNat]? = some k) (hb : k.bound = false) :
    s.requireArmed c = .error ⟨.unbound, c⟩ := by
  simp [requireArmed_some h, hb]

/-- The check of an armed channel raises E_NOTSTARTED on one that is bound but not armed. -/
theorem requireArmed_notStarted (h : s.chans[c.toNat]? = some k) (hb : k.bound = true) (ha : k.armed = false) :
    s.requireArmed c = .error ⟨.notStarted, c⟩ := by
  simp [requireArmed_some h, hb, ha]

/-- The check of an armed channel answers the channel. -/
theorem requireArmed_ok (h : s.chans[c.toNat]? = some k) (hb : k.bound = true) (ha : k.armed = true) :
    s.requireArmed c = .ok k := by
  simp [requireArmed_some h, hb, ha]

end

/-! ## START (R144) -/

/-- Settles O35: its row reserves bits 23:0; the checks are E_CHANNEL and then E_UNBOUND, and the command ends by
them. -/
theorem startCommand : Obligations.StartCommand := by
  refine ⟨fun w hw => decode_of_reservesField hw rfl ⟨by decide, by decide, by decide⟩ (by decide),
    fun s c hc => finish_map_error (requireBound_none (List.getElem?_eq_none hc)),
    fun s c k hk hb => finish_map_error (requireBound_unbound hk hb),
    fun s c k hk hb => finish_map_ok (requireBound_ok hk hb), fun v => ?_⟩
  cases v <;> rfl

/-! ## UPDB (R145) -/

/-- The fold of NORMAL, with the entry that it reads written as the bit-steps that made it (R140). -/
theorem fold_normal (r : Word) (b : Byte) :
    fold .normal (buildTable .normal) r b =
      repeatStep (stepReflected (poly .normal)) 8 (((r ^^^ b.zeroExtend 32).extractLsb' 0 8).zeroExtend 32) ^^^
        (r >>> 8) :=
  congrArg (· ^^^ r >>> 8) (buildReflected_entry _ _)

/-- The fold of MPEG2, with the entry that it reads written as the bit-steps that made it (R140). -/
theorem fold_mpeg2 (r : Word) (b : Byte) :
    fold .mpeg2 (buildTable .mpeg2) r b =
      repeatStep (stepNonreflected (poly .mpeg2)) 8 ((r.extractLsb' 24 8 ^^^ b).zeroExtend 32 <<< 24) ^^^ (r <<< 8) :=
  congrArg (· ^^^ r <<< 8) (buildNonreflected_entry _ _)

/-- A zero byte leaves a zero register at zero, whatever the variant (R145, corner cases). -/
theorem fold_zero_zero (v : Variant) : fold v (buildTable v) 0 0 = 0 := by
  cases v with
  | normal =>
    rw [fold_normal]
    decide
  | mpeg2 =>
    rw [fold_mpeg2]
    decide

/-- Settles O36: its row reserves bits 23:8; the checks are E_CHANNEL, E_UNBOUND and then E_NOTSTARTED, and the command
ends by them. -/
theorem updbCommand : Obligations.UpdbCommand := by
  refine ⟨fun w hw => decode_of_reservesField hw rfl ⟨by decide, by decide, by decide⟩ (by decide),
    fun s c b hc => finish_map_error (requireArmed_none (List.getElem?_eq_none hc)),
    fun s c b k hk hb => finish_map_error (requireArmed_unbound hk hb),
    fun s c b k hk hb ha => finish_map_error (requireArmed_notStarted hk hb ha),
    fun s c b k hk hb ha => finish_map_ok (requireArmed_ok hk hb ha), fold_zero_zero, ?_⟩
  rw [fold_normal]
  decide

/-! ## UPDW (R146) -/

/-- A word of the opcode of UPDW is the command when bits 23:3 are 0 and N is at most 4; else it raises E_FIELD. -/
theorem decode_updw {w : Word} (hop : w.extractLsb' 28 4 = 0x4#4) :
    decode w = if w.extractLsb' 3 21 = 0 ∧ (w.extractLsb' 0 3).toNat ≤ 4
      then .ok (.updw (w.extractLsb' 24 4) (w.extractLsb' 0 3)) else .error ⟨.field, w.extractLsb' 24 4⟩ := by
  obtain ⟨row, hrow, hop4, hres, hread⟩ : ∃ row, Decode.rowOf 0x4#4 = some row ∧ row.op = 0x4 ∧
      ReservesField row 3 21 ∧ row.read w = .updw (w.extractLsb' 24 4) (w.extractLsb' 0 3) :=
    ⟨_, rfl, rfl, ⟨by decide, by decide, by decide⟩, rfl⟩
  have hmatch := matches_iff_reserved_eq_zero hop hrow hres
  have hdec : Decode.rowOf (Decode.op w) = some row := (congrArg Decode.rowOf hop).trans hrow
  split
  next h =>
    obtain ⟨hzero, hcount⟩ := h
    have hfits : ¬ 4 < (Decode.slice w 0 3).toNat := Nat.not_lt.2 hcount
    simp only [decode, hdec, hmatch.2 hzero, ne_eq, not_true_eq_false, if_false, hfits, and_false, hread]
  next h => exact decode_of_failsRow hdec fun hm => ⟨hop4, Nat.lt_of_not_le fun hle => h ⟨hmatch.1 hm, hle⟩⟩

/-- UPDW with N at most 4 ends by the check of an armed channel. -/
theorem exec_updw {n : BitVec 3} (hn : n.toNat ≤ 4) (c : BitVec 4) (s : State) :
    exec (.updw c n) s =
      s.finish ((s.requireArmed c).map fun k => s.setChannel c.toNat (k.absorb (dataBytes s.data n.toNat))) :=
  if_neg (Nat.not_lt.2 hn)

/-- Settles O37: its row reserves bits 23:3 and N has its bound; with N in it the checks are E_CHANNEL, E_UNBOUND and
then E_NOTSTARTED, and the command ends by them. -/
theorem updwCommand : Obligations.UpdwCommand :=
  ⟨fun _ hw => decode_updw hw,
    fun s c _ hn hc => (exec_updw hn c s).trans (finish_map_error (requireArmed_none (List.getElem?_eq_none hc))),
    fun s c _ _ hn hk hb => (exec_updw hn c s).trans (finish_map_error (requireArmed_unbound hk hb)),
    fun s c _ _ hn hk hb ha => (exec_updw hn c s).trans (finish_map_error (requireArmed_notStarted hk hb ha)),
    fun s c _ _ hn hk hb ha => (exec_updw hn c s).trans (finish_map_ok (requireArmed_ok hk hb ha))⟩

/-! ## UPDM (R147) -/

section
variable {s : State} {m : BitVec 16} {j : Nat} {k : Channel}

/-- The checks of UPDM raise E_CHANNEL with the lowest mask bit that has no channel. -/
theorem requireSelected_absent (hm : m.getLsbD j = true) (habsent : s.nch ≤ j)
    (hlow : ∀ l, l < j → m.getLsbD l = true → l < s.nch) :
    s.requireSelected m = .error ⟨.channel, BitVec.ofNat 4 j⟩ := by
  rw [State.requireSelected, lowestAbsent_some.2 ⟨hm, habsent, hlow⟩]

/-- The scan of UPDM reports the first selected channel that is not bound and armed, with that channel's own first
failing check. -/
theorem scanSelected_first {ks : List Channel} (hm : m.getLsbD j = true) (hk : ks[j]? = some k)
    (hlow : ∀ l k', l < j → ks[l]? = some k' → m.getLsbD l = true → k'.bound = true ∧ k'.armed = true)
    (hfail : ¬ (k.bound = true ∧ k.armed = true)) :
    scanSelected m 0 ks = some ⟨if k.bound then .notStarted else .unbound, BitVec.ofNat 4 j⟩ := by
  cases hscan : scanSelected m 0 ks with
  | none => exact absurd (scanSelected_none.1 hscan j k hk (by rwa [Nat.zero_add])) hfail
  | some e =>
    obtain ⟨i, l, hi, hmi, hbefore, hcase⟩ := scanSelected_some hscan
    simp only [Nat.zero_add] at hmi hbefore hcase
    have hbad : ¬ (l.bound = true ∧ l.armed = true) := by
      rintro ⟨hb, ha⟩
      simp [hb, ha] at hcase
    obtain hlt | rfl | hgt := Nat.lt_trichotomy i j
    · exact absurd (hlow i l hlt hi hmi) hbad
    · obtain rfl : k = l := Option.some.inj (hk.symm.trans hi)
      obtain ⟨hb, rfl⟩ | ⟨hb, -, rfl⟩ := hcase <;> simp [hb]
    · exact absurd (hbefore j k hgt hk hm) hfail

/-- When the block has every selected channel, the checks of UPDM raise the error of the first one that is not bound and
armed. -/
theorem requireSelected_first (hpresent : ∀ l, m.getLsbD l = true → l < s.nch) (hm : m.getLsbD j = true)
    (hk : s.chans[j]? = some k) (hlow : ∀ l, l < j → m.getLsbD l = true → s.ready l true true = true)
    (hfail : ¬ (k.bound = true ∧ k.armed = true)) :
    s.requireSelected m = .error ⟨if k.bound then .notStarted else .unbound, BitVec.ofNat 4 j⟩ := by
  have harmed : ∀ l k', l < j → s.chans[l]? = some k' → m.getLsbD l = true → k'.bound = true ∧ k'.armed = true := by
    intro l k' hl hk' hml
    obtain ⟨k'', hk'', hb, ha⟩ := ready_iff.1 (hlow l hl hml)
    obtain rfl : k' = k'' := Option.some.inj (hk'.symm.trans hk'')
    exact ⟨hb rfl, ha rfl⟩
  rw [State.requireSelected, lowestAbsent_none.2 hpresent, scanSelected_first hm hk harmed hfail]

end

/-- Settles O38: its row reserves bits 27:24; the checks are E_CHANNEL and then the scan of the selected channels, and
the command ends by them. -/
theorem updmCommand : Obligations.UpdmCommand := by
  refine ⟨fun w hw => decode_of_reservesField hw rfl ⟨by decide, by decide, by decide⟩ (by decide),
    fun s m b j hm habsent hlow => finish_map_error (requireSelected_absent hm habsent hlow),
    fun s m b j k hpresent hm hk hlow hb => finish_map_error ?_,
    fun s m b j k hpresent hm hk hlow hb ha => finish_map_error ?_,
    fun s m b h => finish_map_ok (requireSelected_ok.2 h)⟩
  · rw [requireSelected_first hpresent hm hk hlow (by simp [hb]), hb]
    rfl
  · rw [requireSelected_first hpresent hm hk hlow (by simp [ha]), hb]
    rfl

/-! ## FINAL (R150) -/

/-- Settles O39: its row reserves bits 23:0; the checks are E_CHANNEL, E_UNBOUND and then E_NOTSTARTED, and the command
ends by them. -/
theorem finalCommand : Obligations.FinalCommand :=
  ⟨fun w hw => decode_of_reservesField hw rfl ⟨by decide, by decide, by decide⟩ (by decide),
    fun s c hc => finish_map_error (requireArmed_none (List.getElem?_eq_none hc)),
    fun s c k hk hb => finish_map_error (requireArmed_unbound hk hb),
    fun s c k hk hb ha => finish_map_error (requireArmed_notStarted hk hb ha),
    fun s c k hk hb ha => finish_map_ok (requireArmed_ok hk hb ha)⟩

/-! ## The rendering of a result (R156) -/

/-- The first `n` hexadecimal digits of a result, most significant first. -/
def resultDigits (v : Word) (n : Nat) : List (BitVec 4) := (List.range n).map fun k => v.extractLsb' (28 - 4 * k) 4

/-- The character of a digit is the one at its place in the list of upper-case digits. -/
theorem hexDigit_eq_getD (d : BitVec 4) : hexDigit d = "0123456789ABCDEF".toList.getD d.toNat ' ' := by
  revert d
  decide

/-- A result is shown as `0x` and its 8 digits. -/
theorem renderResult_eq (v : Word) : renderResult v = '0' :: 'x' :: (resultDigits v 8).map hexDigit := by
  simp [renderResult, resultDigits]

/-- The first `n` digits read as a number are the upper `4 * n` bits of the result. -/
theorem foldl_resultDigits (v : Word) {n : Nat} (hn : n ≤ 8) :
    (resultDigits v n).foldl (fun x d => 16 * x + d.toNat) 0 = v.toNat >>> (32 - 4 * n) := by
  induction n with
  | zero => exact (Nat.shiftRight_eq_zero _ _ v.isLt).symm
  | succ n ih =>
    have hshift : 32 - 4 * n = (28 - 4 * n) + 4 := by omega
    have hnext : 32 - 4 * (n + 1) = 28 - 4 * n := by omega
    have hsplit : resultDigits v (n + 1) = resultDigits v n ++ [v.extractLsb' (28 - 4 * n) 4] := by
      simp [resultDigits, List.range_succ]
    rw [hsplit, List.foldl_append, ih (by omega), hshift, hnext, Nat.shiftRight_add, List.foldl_cons, List.foldl_nil,
      BitVec.extractLsb'_toNat, Nat.shiftRight_eq_div_pow _ 4]
    exact Nat.div_add_mod (v.toNat >>> (28 - 4 * n)) 16

/-- Settles O55: the 8 digits are those of the result from its upper bits down. -/
theorem renderingShowsTheResult : Obligations.RenderingShowsTheResult := by
  intro v
  refine ⟨resultDigits v 8, by simp [resultDigits], ?_, foldl_resultDigits v (Nat.le_refl 8)⟩
  rw [renderResult_eq, List.map_congr_left fun d _ => hexDigit_eq_getD d]

end Sys2Proof.Machine
end

section
/-! PROOFS about the control commands (42_control.md): NOP (R170) and CLRERR (R171). -/

namespace Sys2Proof.Machine

/-! ## NOP (R170) -/

/-- Settles O31: its row reserves bits 27:0; it has no check and leaves the state as it was. -/
theorem nopCommand : Obligations.NopCommand :=
  ⟨fun w hw => decode_of_reservesField hw rfl ⟨by decide, by decide, by decide⟩ (by decide), fun _ => rfl⟩

/-! ## CLRERR (R171) -/

/-- The words of the CLRERR opcode: its row reserves bits 27:0 (30_encoding.md R96, R99). -/
theorem decode_clrerr {w : Word} (hop : w.extractLsb' 28 4 = 0x8#4) :
    decode w = if w.extractLsb' 0 28 = 0 then .ok .clrerr else .error ⟨.field, w.extractLsb' 24 4⟩ :=
  decode_of_reservesField hop rfl ⟨by decide, by decide, by decide⟩ (by decide)

/-- CLRERR has no check: it always clears the error record. -/
theorem exec_clrerr (s : State) : exec .clrerr s = .next s.clearErrors := rfl

/-- A legal STATUS with ERR = 0 holds an empty error record, so clearing it changes nothing (10_state.md R38). -/
theorem clearErrors_of_err_false {t : Status} {n : Nat} (hlegal : t.Legal n) (herr : t.err = false) :
    t.clearErrors = t := by
  obtain ⟨hemult, hecode, hech⟩ := hlegal.clear_zero herr
  calc t.clearErrors = ⟨t.err, t.emult, t.ecode, t.ech, t.rvalid⟩ := by
        rw [herr, hemult, hecode, hech, Status.clearErrors]
    _ = t := rfl

/-- Settles O32: its row reserves bits 27:0, and a word with one of them at 1 is not decoded; the command has no check,
and in a legal STATUS with ERR = 0 there is nothing to clear. -/
theorem clrerrCommand : Obligations.ClrerrCommand := by
  refine ⟨fun w hw => decode_clrerr hw, exec_clrerr, fun s hinv herr => ?_,
    fun w s hw hres => performCommand_of_decode_error ((decode_clrerr hw).trans (if_neg hres))⟩
  rw [exec_clrerr, State.clearErrors, clearErrors_of_err_false hinv.status_legal herr]

end Sys2Proof.Machine
end

section
/-! PROOFS about command errors (60_exceptions.md): which check a word fails and what is reported (R182, R184), the error
procedure (R183), the commands after an error (R186), and what clears the error record (R187). -/

namespace Sys2Proof.Machine

/-! ## What a decoded word holds (30_encoding.md R92, R96, R97) -/

section
variable {w : Word} {i : Instr} {c : BitVec 4}

/-- A decoded instruction is read by a row of the opcode map, with N in its bound. -/
theorem exists_row_of_decode (h : decode w = .ok i) :
    ∃ row ∈ Decode.opTable, row.read w = i ∧ ¬ (row.op = 0x4 ∧ 4 < (Decode.slice w 0 3).toNat) := by
  rw [decode] at h
  split at h
  next => cases h
  next row hrow =>
    split at h
    next => cases h
    next =>
      split at h
      next => cases h
      next hcount => exact ⟨row, List.mem_of_find?_eq_some hrow, Except.ok.inj h, hcount⟩

/-- Every row of the opcode map reads CH from bits 27:24, or reads no single channel. -/
theorem channel?_read {row : OpRow} (hrow : row ∈ Decode.opTable) :
    (row.read w).channel? = none ∨ (row.read w).channel? = some (w.extractLsb' 24 4) := by
  revert row
  simp [Decode.opTable, Instr.channel?, Decode.ch, Decode.slice]

/-- Every row of the opcode map reads a well-formed instruction when N is in its bound. -/
theorem wellFormed_read {row : OpRow} (hrow : row ∈ Decode.opTable)
    (hcount : ¬ (row.op = 0x4 ∧ 4 < (Decode.slice w 0 3).toNat)) : (row.read w).wellFormed = true := by
  revert row
  simp [Decode.opTable, Instr.wellFormed]

/-- The channel of a decoded single-channel command is bits 27:24 of its word. -/
theorem channel_of_decode (h : decode w = .ok i) (hc : i.channel? = some c) : c = w.extractLsb' 24 4 := by
  obtain ⟨row, hrow, rfl, -⟩ := exists_row_of_decode h
  obtain hnone | hsome := channel?_read (w := w) hrow
  · cases hnone.symm.trans hc
  · exact Option.some.inj (hc.symm.trans hsome)

/-- Decoding gives well-formed instructions only. -/
theorem wellFormed_of_decode (h : decode w = .ok i) : i.wellFormed = true := by
  obtain ⟨row, hrow, rfl, hcount⟩ := exists_row_of_decode h
  exact wellFormed_read hrow hcount

/-- A word with a defined opcode and no reserved bit at 1, nor N in 5..7 in UPDW, is a command. -/
theorem exists_decode_of_reservedBitsSet_eq_false (hop : (w.extractLsb' 28 4).toNat < 9)
    (h : reservedBitsSet w = false) : ∃ i, decode w = .ok i := by
  rw [reservedBitsSet] at h
  generalize ho : w.extractLsb' 28 4 = o at hop h
  obtain ⟨n, hn⟩ := o
  replace hop : n < 9 := hop
  interval_cases n
  -- UPDW, the one format with a second way to fail
  pick_goal 5
  · obtain ⟨hbits, hcount⟩ := Bool.or_eq_false_iff.1 h
    exact ⟨_, (decode_updw ho).trans (if_pos ⟨bne_eq_false_iff_eq.1 hbits, Nat.not_lt.1 (of_decide_eq_false hcount)⟩)⟩
  all_goals exact ⟨_, (decode_of_reservesField ho rfl ⟨by decide, by decide, by decide⟩ nofun).trans
      (if_pos (bne_eq_false_iff_eq.1 h))⟩

end

/-! ## The checks of a single-channel command (R182) -/

section
variable {s : State} {i : Instr} {c : BitVec 4} {k : Channel} {bound armed : Bool}

/-- The checks on the channel of a single-channel command: E_CHANNEL, then E_UNBOUND and E_NOTSTARTED where the command
makes them (R180, R182). -/
def State.requireReady (s : State) (c : BitVec 4) (bound armed : Bool) : Except CmdError Channel :=
  if armed then s.requireArmed c else if bound then s.requireBound c else s.requireChannel c

/-- A channel that does not exist fails the E_CHANNEL check. -/
theorem requireReady_absent (h : s.nch ≤ c.toNat) : s.requireReady c bound armed = .error ⟨.channel, c⟩ := by
  have hnone : s.chans[c.toNat]? = none := List.getElem?_eq_none h
  cases armed with
  | true => exact requireArmed_none hnone
  | false =>
    cases bound with
    | true => exact requireBound_none hnone
    | false => exact requireChannel_none hnone

/-- A channel that is not bound fails the E_UNBOUND check. -/
theorem requireReady_unbound (h : s.chans[c.toNat]? = some k) (hb : k.bound = false) :
    s.requireReady c true armed = .error ⟨.unbound, c⟩ := by
  cases armed with
  | true => exact requireArmed_unbound h hb
  | false => exact requireBound_unbound h hb

/-- A single-channel command ends by the checks on its channel. -/
theorem exec_eq_finish_requireReady (hwf : i.wellFormed = true) (hc : i.channel? = some c) (s : State) :
    ∃ f, exec i s = s.finish ((s.requireReady c i.needsBound i.needsArmed).map f) := by
  cases i with
  | nop | updm | clrerr => cases hc
  | init | start | updb | final | tread =>
    cases hc
    exact ⟨_, rfl⟩
  | updw c n =>
    cases hc
    exact ⟨_, exec_updw (of_decide_eq_true hwf) c s⟩

/-- A single-channel command is accepted when its channel passes the checks. -/
theorem accepted_of_channel (hc : i.channel? = some c) :
    accepted i s = (i.wellFormed && s.ready c.toNat i.needsBound i.needsArmed) := by
  cases i with
  | nop | updm | clrerr => cases hc
  | init | start | updb | updw | final | tread =>
    cases hc
    rfl

/-- A command that checks ARMED checks BOUND too (R180). -/
theorem needsBound_of_needsArmed (h : i.needsArmed = true) : i.needsBound = true := by
  cases i with
  | nop | init | start | tread | clrerr => cases h
  | updb | updw | updm | final => rfl

end

/-! ## The first failing check (R182, R184) -/

section
variable {w : Word} {s : State} {i : Instr} {c : BitVec 4} {e e' : CmdError}

/-- A single-channel command word whose channel fails a check takes that check's error. -/
theorem performCommand_of_requireReady_error (hd : decode w = .ok i) (hc : i.channel? = some c)
    (h : s.requireReady c i.needsBound i.needsArmed = .error e) :
    performCommand w s = .next { s with status := s.status.recordError e } := by
  obtain ⟨f, hf⟩ := exec_eq_finish_requireReady (wellFormed_of_decode hd) hc s
  rw [performCommand, hd]
  exact hf.trans (finish_map_error h)

/-- A UPDM word whose mask fails a check takes that check's error. -/
theorem performCommand_of_requireSelected_error {m : BitVec 16} {b : Byte} (hd : decode w = .ok (.updm m b))
    (h : s.requireSelected m = .error e) :
    performCommand w s = .next { s with status := s.status.recordError e } := by
  rw [performCommand, hd]
  exact finish_map_error h

/-- A word takes the error that it raises. -/
theorem performCommand_of_raises (h : Raises w s e) :
    performCommand w s = .next { s with status := s.status.recordError e } := by
  cases h with
  | opcode hop => exact performCommand_of_decode_error (decode_reserved_opcode hop)
  | field hop hres => exact (reservedBitsRaiseFieldError w s hop hres).2
  | channel i c hd hc habsent =>
    rw [← channel_of_decode hd hc]
    exact performCommand_of_requireReady_error hd hc (requireReady_absent habsent)
  | unbound i c k hd hc hk hneeds hb =>
    rw [← channel_of_decode hd hc]
    exact performCommand_of_requireReady_error hd hc (hneeds ▸ requireReady_unbound hk hb)
  | notStarted i c k hd hc hk hneeds hb ha =>
    rw [← channel_of_decode hd hc]
    exact performCommand_of_requireReady_error hd hc (hneeds ▸ requireArmed_notStarted hk hb ha)
  | maskChannel m b j hd hm habsent hlow =>
    exact performCommand_of_requireSelected_error hd (requireSelected_absent hm habsent hlow)
  | maskUnbound m b j k hd hpresent hm hk hlow hb =>
    refine performCommand_of_requireSelected_error hd ?_
    rw [requireSelected_first hpresent hm hk hlow (by simp [hb]), hb]
    rfl
  | maskNotStarted m b j k hd hpresent hm hk hlow hb ha =>
    refine performCommand_of_requireSelected_error hd ?_
    rw [requireSelected_first hpresent hm hk hlow (by simp [ha]), hb]
    rfl

/-- The checks do not read STATUS. -/
theorem Raises.withStatus (h : Raises w s e) (st : Status) : Raises w { s with status := st } e := by
  cases h with
  | opcode hop => exact .opcode hop
  | field hop hres => exact .field hop hres
  | channel i c hd hc habsent => exact .channel i c hd hc habsent
  | unbound i c k hd hc hk hneeds hb => exact .unbound i c k hd hc hk hneeds hb
  | notStarted i c k hd hc hk hneeds hb ha => exact .notStarted i c k hd hc hk hneeds hb ha
  | maskChannel m b j hd hm habsent hlow => exact .maskChannel m b j hd hm habsent hlow
  | maskUnbound m b j k hd hpresent hm hk hlow hb => exact .maskUnbound m b j k hd hpresent hm hk hlow hb
  | maskNotStarted m b j k hd hpresent hm hk hlow hb ha =>
    exact .maskNotStarted m b j k hd hpresent hm hk hlow hb ha

/-- The error numbers are different (R180). -/
theorem errNumber_injective : Function.Injective errNumber := by
  intro x y h
  revert h
  cases x <;> cases y <;> decide

/-- A first error can be read off STATUS (R183). -/
theorem recordError_atReset_injective : Function.Injective Status.atReset.recordError := by
  intro x y h
  obtain ⟨code, ch⟩ := x
  obtain ⟨code', ch'⟩ := y
  obtain rfl : code = code' := errNumber_injective (congrArg Status.ecode h)
  obtain rfl : ch = ch' := congrArg Status.ech h
  rfl

/-- A word raises one error at most: performed with STATUS clear, it records the error it raises. -/
theorem Raises.unique (h : Raises w s e) (h' : Raises w s e') : e = e' := by
  have hp := performCommand_of_raises (h.withStatus Status.atReset)
  have hp' := performCommand_of_raises (h'.withStatus Status.atReset)
  exact recordError_atReset_injective (congrArg State.status (Host.Outcome.next.inj (hp.symm.trans hp')))

/-- A rejected single-channel command raises the error of a check on its channel. -/
theorem exists_raises_of_channel_rejected (hd : decode w = .ok i) (hc : i.channel? = some c)
    (h : accepted i s = false) : ∃ e, Raises w s e := by
  rw [accepted_of_channel hc, wellFormed_of_decode hd, Bool.true_and] at h
  cases hk : s.chans[c.toNat]? with
  | none => exact ⟨_, .channel i c hd hc (List.getElem?_eq_none_iff.1 hk)⟩
  | some k =>
    simp only [State.ready, hk, Bool.and_eq_false_iff, Bool.or_eq_false_iff, Bool.not_eq_false'] at h
    obtain ⟨hneeds, hb⟩ | ⟨hneeds, ha⟩ := h
    · exact ⟨_, .unbound i c k hd hc hk hneeds hb⟩
    · cases hb : k.bound with
      | false => exact ⟨_, .unbound i c k hd hc hk (needsBound_of_needsArmed hneeds) hb⟩
      | true => exact ⟨_, .notStarted i c k hd hc hk hneeds hb ha⟩

/-- A rejected UPDM raises E_CHANNEL, or the error that the scan of its channels finds. -/
theorem exists_raises_of_updm_rejected {m : BitVec 16} {b : Byte} (hd : decode w = .ok (.updm m b))
    (h : accepted (.updm m b) s = false) : ∃ e, Raises w s e := by
  cases habsent : lowestAbsent m s.nch with
  | some j =>
    obtain ⟨hm, hle, hlow⟩ := lowestAbsent_some.1 habsent
    exact ⟨_, .maskChannel m b j hd hm hle hlow⟩
  | none =>
    have hpresent := lowestAbsent_none.1 habsent
    cases hscan : scanSelected m 0 s.chans with
    | none =>
      have hok : s.requireSelected m = .ok () := by rw [State.requireSelected, habsent, hscan]
      cases h.symm.trans (accepted_updm.2 (requireSelected_ok.1 hok))
    | some e =>
      obtain ⟨j, k, hk, hm, hbefore, hcase⟩ := scanSelected_some hscan
      rw [Nat.zero_add] at hm
      have hlow : ∀ l, l < j → m.getLsbD l = true → s.ready l true true = true := by
        intro l hl hml
        have hk' := List.getElem?_eq_getElem (hpresent l hml)
        obtain ⟨hb, ha⟩ := hbefore l _ hl hk' (by rwa [Nat.zero_add])
        exact ready_iff.2 ⟨_, hk', fun _ => hb, fun _ => ha⟩
      obtain ⟨hb, -⟩ | ⟨hb, ha, -⟩ := hcase
      · exact ⟨_, .maskUnbound m b j k hd hpresent hm hk hlow hb⟩
      · exact ⟨_, .maskNotStarted m b j k hd hpresent hm hk hlow hb ha⟩

/-- A rejected command raises an error. -/
theorem exists_raises_of_rejected (hd : decode w = .ok i) (h : accepted i s = false) : ∃ e, Raises w s e := by
  cases i with
  | nop | clrerr => cases h
  | updm m b => exact exists_raises_of_updm_rejected hd h
  | init | start | updb | updw | final | tread => exact exists_raises_of_channel_rejected hd rfl h

/-- A word that raises nothing is an accepted command. -/
theorem exists_accepted_of_not_raises (h : ∀ e, ¬ Raises w s e) : ∃ i, decode w = .ok i ∧ accepted i s = true := by
  have hop : (w.extractLsb' 28 4).toNat < 9 := Nat.lt_of_not_le fun hop => h _ (.opcode hop)
  have hres : reservedBitsSet w = false := Bool.eq_false_iff.2 fun hres => h _ (.field hop hres)
  obtain ⟨i, hd⟩ := exists_decode_of_reservedBitsSet_eq_false hop hres
  refine ⟨i, hd, Bool.of_not_eq_false fun hrej => ?_⟩
  obtain ⟨e, he⟩ := exists_raises_of_rejected hd hrej
  exact h e he

end

/-- Settles O29: a word takes the error that it raises, so it raises one at most, and a word that raises none has passed
decoding and the checks of its command. -/
theorem firstFailingCheckIsReported : Obligations.FirstFailingCheckIsReported :=
  fun _ _ => ⟨fun _ => performCommand_of_raises, fun _ _ => Raises.unique, exists_accepted_of_not_raises⟩

/-! ## The error procedure (R183) -/

/-- The first error is recorded with its code and channel. -/
theorem recordError_of_err_false {t : Status} (h : t.err = false) (e : CmdError) :
    t.recordError e = { t with err := true, ecode := errNumber e.code, ech := e.ch } := by
  rw [Status.recordError, h]
  rfl

/-- A later error sets EMULT and keeps the first. -/
theorem recordError_of_err_true {t : Status} (h : t.err = true) (e : CmdError) :
    t.recordError e = { t with emult := true } :=
  if_pos h

/-- Settles O27: taking an error records it in STATUS and nowhere else, and a CMD write whose word raises an error takes
it and completes. -/
theorem commandErrorProcedure : Obligations.CommandErrorProcedure := by
  refine ⟨fun s e h => ?_, fun s e h => ?_, fun s w rest e hin hraises => ?_⟩
  · rw [State.takeCmdError, recordError_of_err_false h]
    rfl
  · rw [State.takeCmdError, recordError_of_err_true h]
  · rw [step_command hin, performCommand_of_raises hraises, respond_next]
    rfl

/-! ## The commands after an error (R186) -/

section
variable {s : State} {st : Status}

/-- A command whose effects differ at most in STATUS ends in states that differ at most in STATUS. -/
theorem finish_map_withStatus {α : Type} (r : Except CmdError α) {f g : α → State}
    (hfg : ∀ a, ∃ st', g a = { f a with status := st' }) :
    ∃ t st', s.finish (r.map f) = .next t ∧
      State.finish { s with status := st } (r.map g) = .next { t with status := st' } := by
  cases r with
  | ok a =>
    obtain ⟨st', h⟩ := hfg a
    exact ⟨f a, st', rfl, congrArg Host.Outcome.next h⟩
  | error e => exact ⟨s.takeCmdError e, st.recordError e, rfl, rfl⟩

/-- A command neither checks STATUS nor writes anything else from it. -/
theorem exec_withStatus (i : Instr) :
    ∃ t st', exec i s = .next t ∧ exec i { s with status := st } = .next { t with status := st' } := by
  cases i with
  | nop => exact ⟨s, st, rfl, rfl⟩
  | clrerr => exact ⟨s.clearErrors, st.clearErrors, rfl, rfl⟩
  | init c v => exact finish_map_withStatus (s.requireChannel c) fun _ => ⟨st, rfl⟩
  | start c => exact finish_map_withStatus (s.requireBound c) fun _ => ⟨st, rfl⟩
  | updb c b => exact finish_map_withStatus (s.requireArmed c) fun _ => ⟨st, rfl⟩
  | updw c n =>
    by_cases hn : n.toNat ≤ 4
    · rw [exec_updw hn, exec_updw hn]
      exact finish_map_withStatus (s.requireArmed c) fun _ => ⟨st, rfl⟩
    · have hill : 4 < n.toNat := Nat.lt_of_not_le hn
      exact ⟨_, st.recordError ⟨.field, c⟩, if_pos hill, if_pos hill⟩
  | updm m b => exact finish_map_withStatus (s.requireSelected m) fun _ => ⟨st, rfl⟩
  | final c => exact finish_map_withStatus (s.requireArmed c) fun _ => ⟨st.setResultValid, rfl⟩
  | tread c x => exact finish_map_withStatus (s.requireBound c) fun _ => ⟨st.setResultValid, rfl⟩

/-- A command word does the same outside STATUS whatever STATUS holds. -/
theorem performCommand_withStatus (w : Word) :
    ∃ t st', performCommand w s = .next t ∧
      performCommand w { s with status := st } = .next { t with status := st' } := by
  cases hd : decode w with
  | ok i => simpa only [performCommand, hd] using exec_withStatus i
  | error e => exact ⟨_, _, performCommand_of_decode_error hd, performCommand_of_decode_error hd⟩

end

/-- Settles O30: with another STATUS a command ends in the same state but for STATUS. -/
theorem blockGoesOnAfterErrors : Obligations.BlockGoesOnAfterErrors := by
  intro w s st
  obtain ⟨t, st', ht, hu⟩ := performCommand_withStatus (s := s) (st := st) w
  exact ⟨t, _, ht, hu, rfl, rfl, rfl⟩

/-! ## What clears the error record (R187) -/

section
variable {s t : State}

/-- The pending command is the one that the word of the next CMD write decodes to. -/
theorem pending_eq_some {i : Instr} : s.pending = some i ↔ ∃ w, s.pendingWord = some w ∧ decode w = .ok i := by
  rw [State.pending]
  cases s.pendingWord with
  | none => simp
  | some w => cases hd : decode w <;> simp [hd]

/-- The next event is the reset input when it is one that the inputs begin with. -/
theorem resetNext_iff : s.resetNext = true ↔ ∃ a rest, s.inputs = .reset a :: rest := by
  rw [State.resetNext]
  constructor
  · intro h
    split at h
    next a rest hin => exact ⟨a, rest, hin⟩
    next => cases h
  · rintro ⟨a, rest, hin⟩
    rw [hin]

/-- `u` holds the error record of `t`: the same first error, and EMULT not cleared. -/
structure Status.HoldsRecordOf (u t : Status) : Prop where
  err   : u.err = true
  ecode : u.ecode = t.ecode
  ech   : u.ech = t.ech
  emult : t.emult = true → u.emult = true

/-- Taking a later error keeps the record of the first (R183, R188). -/
theorem recordError_holdsRecordOf {u : Status} (h : u.err = true) (e : CmdError) :
    (u.recordError e).HoldsRecordOf u := by
  rw [recordError_of_err_true h]
  exact ⟨h, rfl, rfl, fun _ => rfl⟩

/-- CLRERR is the only command whose effect touches the error record. -/
theorem effect_holdsRecordOf {i : Instr} (he : Effect s i t) (hi : i ≠ .clrerr) (h : s.status.err = true) :
    t.status.HoldsRecordOf s.status := by
  cases he with
  | clrerr => exact absurd rfl hi
  | nop | init | start | updb | updw | updm | final | tread => exact ⟨h, rfl, rfl, id⟩

/-- A command word other than CLRERR keeps the error record. -/
theorem performCommand_holdsRecordOf {w : Word} (hp : performCommand w s = .next t) (hd : decode w ≠ .ok .clrerr)
    (h : s.status.err = true) : t.status.HoldsRecordOf s.status := by
  obtain ⟨i, u, hi, hu, -, he⟩ | ⟨i, e, -, hu, -, -⟩ | ⟨e, -, hu⟩ := performCommand_cases w s
  · cases hp.symm.trans hu
    exact effect_holdsRecordOf he (fun hclr => hd (hclr ▸ hi)) h
  · cases hp.symm.trans hu
    exact recordError_holdsRecordOf h e
  · cases hp.symm.trans hu
    exact recordError_holdsRecordOf h e

/-- A step that is neither CLRERR nor the reset input keeps the error record. -/
theorem step_holdsRecordOf (hstep : step s = .next t) (h : s.status.err = true) (hp : s.pending ≠ some .clrerr)
    (hr : s.resetNext = false) : t.status.HoldsRecordOf s.status := by
  obtain ⟨-, rfl⟩ | ⟨_, _, _, _, -, -, rfl⟩ | ⟨_, _, -, rfl⟩ | ⟨rest, w, u, hin, hu, rfl⟩ | ⟨a, rest, hin, -⟩ :=
    step_cases hstep
  · exact ⟨h, rfl, rfl, id⟩
  · exact ⟨h, rfl, rfl, id⟩
  · exact ⟨h, rfl, rfl, id⟩
  · have hd : decode w ≠ .ok .clrerr := fun hd => hp (pending_eq_some.2 ⟨w, pendingWord_eq_some.2 ⟨rest, hin⟩, hd⟩)
    have hkept := performCommand_holdsRecordOf hu hd h
    exact hkept
  · cases hr.symm.trans (resetNext_iff.2 ⟨a, rest, hin⟩)

/-- The step of a CMD write of CLRERR clears the error record and keeps RVALID (42_control.md R171). -/
theorem step_clrerr_status (hstep : step s = .next t) (hp : s.pending = some .clrerr) :
    t.status = s.status.clearErrors := by
  obtain ⟨w, hw, hd⟩ := pending_eq_some.1 hp
  obtain ⟨rest, hin⟩ := pendingWord_eq_some.1 hw
  rw [step_command hin, performCommand, hd] at hstep
  cases hstep
  rfl

/-- The step of the reset input gives STATUS its reset value (70_reset_and_hazards.md R210). -/
theorem step_reset_status (hstep : step s = .next t) (hr : s.resetNext = true) : t.status = Status.atReset := by
  obtain ⟨a, rest, hin⟩ := resetNext_iff.1 hr
  rw [step_reset hin] at hstep
  cases hstep
  rfl

end

/-- Settles O23: every other step keeps the record, CLRERR writes its fields to 0, and reset all of STATUS. -/
theorem errorRecordStaysUntilCleared : Obligations.ErrorRecordStaysUntilCleared := by
  intro s t hstep herr
  refine ⟨fun hp hr => ?_, fun hclear => ?_⟩
  · obtain ⟨hkept, hecode, hech, hemult⟩ := step_holdsRecordOf hstep herr hp hr
    exact ⟨hkept, hecode, hech, hemult⟩
  · obtain hp | hr := hclear
    · rw [step_clrerr_status hstep hp]
      exact ⟨rfl, rfl, rfl, rfl⟩
    · rw [step_reset_status hstep hr]
      exact ⟨rfl, rfl, rfl, rfl⟩

end Sys2Proof.Machine
end

section
/-! PROOFS about the reset input (70_reset_and_hazards.md R210). -/

namespace Sys2Proof.Machine

variable {s : State} {k : Channel}

/-- After the reset input each channel is as reset leaves it, with some contents of CRC and TABLE (log entry 3). -/
theorem exists_eq_atReset_of_mem_resetBlock (h : k ∈ s.resetBlock.chans) : ∃ r T, k = Channel.atReset r T := by
  rw [State.resetBlock_chans] at h
  obtain ⟨_, _, hk⟩ := List.mem_mapIdx.1 h
  exact ⟨_, _, hk.symm⟩

/-- CHSTAT reads 0 when no channel is bound or armed (10_state.md R39). -/
theorem chstatWord_eq_zero (hbound : ∀ k ∈ s.chans, k.bound = false) (harmed : ∀ k ∈ s.chans, k.armed = false) :
    chstatWord s = 0 := by
  rw [chstatWord, channelBits_eq_zero hbound, channelBits_eq_zero harmed]
  rfl

/-- CHVAR reads 0 when every channel has the variant NORMAL (10_state.md R40). -/
theorem chvarWord_eq_zero (h : ∀ k ∈ s.chans, k.variant = .normal) : chvarWord s = 0 :=
  channelBits_eq_zero (fun k hk => by simp [h k hk]) 0

/-- Settles O18: the step of the reset input is `resetBlock`, which leaves every channel as reset does, so the views
CHSTAT and CHVAR have no bit set. -/
theorem resetInputGivesTheResetValues : Obligations.ResetInputGivesTheResetValues := by
  intro s a rest hin
  have hchans : ∀ k ∈ ({ s with inputs := rest }.resetBlock).chans,
      k.variant = .normal ∧ k.bound = false ∧ k.armed = false := by
    intro k hk
    obtain ⟨r, T, rfl⟩ := exists_eq_atReset_of_mem_resetBlock hk
    exact ⟨rfl, rfl, rfl⟩
  have hchstat := chstatWord_eq_zero (fun k hk => (hchans k hk).2.1) (fun k hk => (hchans k hk).2.2)
  have hchvar := chvarWord_eq_zero fun k hk => (hchans k hk).1
  exact ⟨_, step_reset hin, State.resetBlock_nch _, rfl, hchans, rfl, rfl, Status.atReset_toWord, rfl, hchstat, hchvar⟩

end Sys2Proof.Machine
end

section
/-! PROOFS about the two directions of the encoding (30_encoding.md): a field of a word can be read back from where it
was placed, and a word is the encoding of what it decodes to. -/

namespace Sys2Proof.Machine

/-! ## Fields of a word (R92) -/

section
variable {width width' : Nat}

/-- A field of a union of words is the union of the fields. -/
theorem slice_or (x y : Word) (lo width : Nat) :
    Decode.slice (x ||| y) lo width = Decode.slice x lo width ||| Decode.slice y lo width :=
  BitVec.extractLsb'_or

/-- A field that fits a word is read back from where it was placed. -/
theorem slice_place_self {lo : Nat} (v : BitVec width) (h : lo + width ≤ 32) :
    Decode.slice (Decode.place v lo) lo width = v := by
  apply BitVec.eq_of_getLsbD_eq
  intro j hj
  rw [slice_getLsbD, place_getLsbD]
  simp [hj, show lo + j < 32 by omega]

/-- A placed field leaves the fields below it and above it at 0. -/
theorem slice_place_apart {lo lo' : Nat} (v : BitVec width') (h : lo + width ≤ lo' ∨ lo' + width' ≤ lo) :
    Decode.slice (Decode.place v lo') lo width = 0 := by
  apply BitVec.eq_of_getLsbD_eq
  intro j hj
  rw [slice_getLsbD, place_getLsbD]
  rcases h with hbelow | habove
  · simp [show ¬ lo' ≤ lo + j by omega]
  · simp [BitVec.getLsbD_of_ge v (lo + j - lo') (by omega)]

end

/-! ## Decoding an encoded instruction (R97) -/

/-- Every encoded instruction agrees with its row of the opcode map (R96). -/
theorem encode_matches_row (i : Instr) :
    ∃ row, Decode.rowOf i.opcode = some row ∧ encode i &&& row.mask = row.pattern := by
  cases i with
  | nop => exact Laws.MatchesRow.nop
  | init c v => exact Laws.MatchesRow.init c v
  | start c => exact Laws.MatchesRow.start c
  | updb c b => exact Laws.MatchesRow.updb c b
  | updw c n => exact Laws.MatchesRow.updw c n
  | updm m b => exact Laws.MatchesRow.updm m b
  | final c => exact Laws.MatchesRow.final c
  | tread c x => exact Laws.MatchesRow.tread c x
  | clrerr => exact Laws.MatchesRow.clrerr

/-- The row of an opcode reads every field of an encoded instruction back. -/
theorem read_encode {i : Instr} {row : OpRow} (h : Decode.rowOf i.opcode = some row) : row.read (encode i) = i := by
  cases i <;> cases h <;>
    simp [encode, Decode.ch, slice_or, slice_place_self, slice_place_apart]

/-- The count of a word that encodes a well-formed UPDW is in its bound (R93). -/
theorem count_encode_le {i : Instr} (hwf : i.wellFormed = true) (hop : i.opcode = 0x4) :
    (Decode.slice (encode i) 0 3).toNat ≤ 4 := by
  cases i with
  | updw c n =>
    simp only [encode, slice_or, slice_place_self n (by decide : 0 + 3 ≤ 32)]
    rw [slice_place_apart _ (.inl (by decide)), slice_place_apart _ (.inl (by decide))]
    simpa [Instr.wellFormed] using hwf
  | _ => cases hop

/-- A well-formed instruction is decoded from its command word. -/
theorem decode_encode {i : Instr} (hwf : i.wellFormed = true) : decode (encode i) = .ok i := by
  obtain ⟨row, hrow, hmatch⟩ := encode_matches_row i
  have hcount : ¬ (row.op = 0x4 ∧ 4 < (Decode.slice (encode i) 0 3).toNat) := fun ⟨hop, hlt⟩ =>
    Nat.not_lt.2 (count_encode_le hwf ((op_of_rowOf hrow).symm.trans hop)) hlt
  simp only [decode, op_encode, hrow, hmatch, ne_eq, not_true_eq_false, if_false, hcount, read_encode hrow]

/-- Settles O2: an encoded instruction agrees with its row, and the row reads its fields back. -/
theorem decodeOfEncodeIsTheInstruction : Obligations.DecodeOfEncodeIsTheInstruction := fun _ => decode_encode

/-! ## Encoding a decoded word (R97) -/

/-- Encoding what a row reads of a word puts the row's match where the mask is 1, and keeps the word where it is 0. -/
theorem encode_read {row : OpRow} (h : row ∈ Decode.opTable) (w : Word) :
    encode (row.read w) = row.pattern ||| w &&& ~~~row.mask := by
  have hfield : ∀ lo width, Decode.place (Decode.slice w lo width) lo =
      w &&& Decode.place (BitVec.allOnes width) lo := fun lo width => (and_place_allOnes w lo width).symm
  simp only [Decode.opTable, List.mem_cons, List.not_mem_nil, or_false] at h
  obtain rfl | rfl | rfl | rfl | rfl | rfl | rfl | rfl | rfl := h
  -- NOP and CLRERR, whose masks keep no bit of the word
  case inl | inr.inr.inr.inr.inr.inr.inr.inr => simp [encode, Decode.place]
  all_goals
    simp only [encode, Decode.ch, varBit_variantOf, hfield, BitVec.or_assoc, ← BitVec.and_or_distrib_left]
    rfl

/-- A word that agrees with a row is the encoding of what the row reads of it. -/
theorem encode_read_of_matches {row : OpRow} {w : Word} (h : row ∈ Decode.opTable)
    (hmatch : w &&& row.mask = row.pattern) : encode (row.read w) = w := by
  rw [encode_read h, ← hmatch, ← BitVec.and_or_distrib_left, BitVec.or_not_self, BitVec.and_allOnes]

/-- A word that decodes agrees with the row that reads it. -/
theorem exists_row_matches_of_decode {w : Word} {i : Instr} (h : decode w = .ok i) :
    ∃ row ∈ Decode.opTable, row.read w = i ∧ w &&& row.mask = row.pattern := by
  rw [decode] at h
  split at h
  next => cases h
  next row hrow =>
    split at h
    next => cases h
    next hmatch =>
      split at h
      next => cases h
      next => exact ⟨row, List.mem_of_find?_eq_some hrow, Except.ok.inj h, not_not.1 hmatch⟩

/-- A word is the encoding of what it decodes to. -/
theorem encode_of_decode {w : Word} {i : Instr} (h : decode w = .ok i) : encode i = w := by
  obtain ⟨row, hrow, rfl, hmatch⟩ := exists_row_matches_of_decode h
  exact encode_read_of_matches hrow hmatch

/-- Settles O3: the word agrees with the row that reads it, and N is in its bound. -/
theorem encodeOfDecodeIsTheWord : Obligations.EncodeOfDecodeIsTheWord :=
  fun _ _ h => ⟨encode_of_decode h, wellFormed_of_decode h⟩

/-- Settles O6: the word passes the checks of its opcode's row, and it is the encoding of the command, whose opcode it
therefore holds. -/
theorem everyOtherWordIsACommand : Obligations.EveryOtherWordIsACommand := by
  intro w hop h
  obtain ⟨i, hd⟩ := exists_decode_of_reservedBitsSet_eq_false hop h
  refine ⟨i, hd, ?_⟩
  calc i.opcode = Decode.op (encode i) := (op_encode i).symm
    _ = Decode.op w := by rw [encode_of_decode hd]

/-- Settles O1: each listed word of a command is its encoding, and the other two fail a check. -/
theorem workedEncodingsDecode : Obligations.WorkedEncodingsDecode :=
  ⟨decode_encode (i := .init 1 .mpeg2) rfl, decode_encode (i := .updb 0 0x31) rfl, decode_encode (i := .updw 1 4) rfl,
    decode_encode (i := .updm 0x0003 0x31) rfl, decode_encode (i := .final 1) rfl,
    decode_encode (i := .tread 0 0xFF) rfl, rfl, rfl⟩

/-! ## UPDW with N above 4 (log entry 12) -/

/-- The command word of an ill-formed UPDW raises E_FIELD. -/
theorem decode_encode_updw_error {n : BitVec 3} (hn : 4 < n.toNat) (c : BitVec 4) :
    decode (encode (.updw c n)) = .error ⟨.field, c⟩ := by
  have hch : Decode.slice (encode (.updw c n)) 24 4 = c := by
    simp [encode, slice_or, slice_place_self, slice_place_apart]
  have hcount : Decode.slice (encode (.updw c n)) 0 3 = n := by
    simp [encode, slice_or, slice_place_self, slice_place_apart]
  have hfail : ¬ (Decode.slice (encode (.updw c n)) 3 21 = 0 ∧ (Decode.slice (encode (.updw c n)) 0 3).toNat ≤ 4) := by
    rw [hcount]
    exact fun h => Nat.not_le.2 hn h.2
  calc decode (encode (.updw c n))
      = .error ⟨.field, Decode.slice (encode (.updw c n)) 24 4⟩ :=
        (decode_updw (op_encode (.updw c n))).trans (if_neg hfail)
    _ = .error ⟨.field, c⟩ := by rw [hch]

/-- Settles O56: `exec` and the decoder raise the same error, of the same channel. -/
theorem illFormedUpdwActsAsItsWord : Obligations.IllFormedUpdwActsAsItsWord := by
  intro s c n hn
  have hexec : exec (.updw c n) s = .next { s with status := s.status.recordError ⟨.field, c⟩ } := if_pos hn
  exact ⟨hexec, (performCommand_of_decode_error (decode_encode_updw_error hn c)).trans hexec.symm⟩

end Sys2Proof.Machine
end

section
/-! PROOFS about what the registers read (10_state.md section 4): STATUS (R38), CHSTAT (R39) and CHVAR (R40). -/

namespace Sys2Proof.Machine

/-! ## STATUS (R38) -/

/-- STATUS is read with each field placed in its own bits. -/
theorem Status.toWord_eq (t : Status) : t.toWord =
    Decode.place (BitVec.ofBool t.err) 0 ||| Decode.place (BitVec.ofBool t.emult) 1 ||| Decode.place t.ecode 4 |||
      Decode.place t.ech 8 ||| Decode.place (BitVec.ofBool t.rvalid) 12 := rfl

/-- Settles O12: the fields of STATUS are placed apart, so each is read back and the bits between them read 0. -/
theorem statusReadsItsFields : Obligations.StatusReadsItsFields := by
  intro t
  simp only [← Decode.slice.eq_1, Status.toWord_eq]
  refine ⟨?_, ?_, ?_, ?_, ?_, ?_, ?_⟩
  · simp only [BitVec.getLsbD_or, place_getLsbD]
    simp
  · simp only [BitVec.getLsbD_or, place_getLsbD]
    simp
  · simp [slice_or, slice_place_apart]
  · simp [slice_or, slice_place_apart, slice_place_self]
  · simp [slice_or, slice_place_apart, slice_place_self]
  · simp only [BitVec.getLsbD_or, place_getLsbD]
    simp
  · simp [slice_or, slice_place_apart]

/-! ## CHSTAT (R39) and CHVAR (R40) -/

/-- A flag placed at bit `k` is bit `k` alone. -/
theorem flagBit_getLsbD (b : Bool) (k j : Nat) :
    (flagBit b k).getLsbD j = (decide (j < 32) && decide (j = k) && b) := by
  rw [show flagBit b k = Decode.place (BitVec.ofBool b) k from rfl, place_getLsbD]
  obtain hlt | rfl | hgt := Nat.lt_trichotomy j k
  · simp [show ¬ k ≤ j by omega, Nat.ne_of_lt hlt]
  · simp
  · simp [show ¬ j - k = 0 by omega, Nat.ne_of_gt hgt]

/-- Bit `j` of a view is the flag of the channel that the view shows there; a bit of no channel reads 0. -/
theorem channelBits_getLsbD (f : Channel → Bool) (n : Nat) (ks : List Channel) (j : Nat) :
    (channelBits f n ks).getLsbD j = (decide (j < 32) && decide (n ≤ j) && (ks[j - n]?).any f) := by
  induction ks generalizing n with
  | nil => simp [channelBits]
  | cons k ks ih =>
    rw [channelBits, BitVec.getLsbD_or, flagBit_getLsbD, ih]
    obtain hlt | rfl | hgt := Nat.lt_trichotomy j n
    · simp [show ¬ n ≤ j by omega, show ¬ n + 1 ≤ j by omega, Nat.ne_of_lt hlt]
    · simp
    · obtain ⟨i, rfl⟩ := Nat.exists_eq_add_of_lt hgt
      simp [show n + i + 1 - n = i + 1 by omega, show n + i + 1 - (n + 1) = i by omega, show ¬ n + i + 1 = n by omega,
        show n ≤ n + i + 1 by omega]

/-- Settles O13: the views hold one bit for each channel, BOUND from bit 0 and ARMED from bit 16 of CHSTAT, which do not
overlap as a block has at most 16 channels. -/
theorem channelViewsReadTheChannels : Obligations.ChannelViewsReadTheChannels := by
  intro s hs
  have habsent : ∀ c, s.nch ≤ c → s.chans[c]? = none := fun c hc => List.getElem?_eq_none hc
  refine ⟨fun c k hk => ?_, fun c hc h16 => ?_, fun c hc => ?_⟩
  · have hc : c < s.nch := (exists_channel_iff s c).1 ⟨k, hk⟩
    have hhigh : s.chans[16 + c]? = none := habsent _ (by omega)
    simp only [chstatWord, chvarWord, BitVec.getLsbD_or, channelBits_getLsbD]
    simp [hk, hhigh, show c < 16 by omega, show c < 32 by omega, show 16 + c < 32 by omega]
  · have hhigh : s.chans[16 + c]? = none := habsent _ (by omega)
    simp only [chstatWord, BitVec.getLsbD_or, channelBits_getLsbD]
    simp [habsent c hc, hhigh, h16]
  · simp only [chvarWord, channelBits_getLsbD]
    simp [habsent c hc]

end Sys2Proof.Machine
end

section
/-! PROOFS about the table and the fold (40_table_builder.md R126, 41_accumulator.md R142). The bit-steps of both
conventions are linear over xor, and without a tested bit they only shift. -/

namespace Sys2Proof.Machine

/-! ## Bit-steps are linear over xor -/

section
variable {f : Word → Word}

/-- Repeating a linear step is linear. -/
theorem repeatStep_xor (hf : ∀ x y, f (x ^^^ y) = f x ^^^ f y) (n : Nat) (x y : Word) :
    repeatStep f n (x ^^^ y) = repeatStep f n x ^^^ repeatStep f n y := by
  induction n generalizing x y with
  | zero => rfl
  | succ n ih => rw [repeatStep, hf, ih, repeatStep, repeatStep]

/-- Repeating a step is one repetition after another. -/
theorem repeatStep_add (m n : Nat) (r : Word) : repeatStep f (m + n) r = repeatStep f n (repeatStep f m r) := by
  induction m generalizing r with
  | zero => rw [Nat.zero_add, repeatStep]
  | succ m ih => rw [Nat.succ_add, repeatStep, ih, repeatStep]

end

section
variable (p : Word)

/-- Adding `p` under a condition is linear in the condition and the word. -/
theorem ite_xor_linear (a b : Bool) (x y : Word) :
    (if (a ^^ b) = true then x ^^^ y ^^^ p else x ^^^ y) =
      (if a = true then x ^^^ p else x) ^^^ (if b = true then y ^^^ p else y) := by
  cases a with
  | false => cases b <;> simp [BitVec.xor_assoc]
  | true =>
    cases b with
    | false => simp [BitVec.xor_assoc, BitVec.xor_comm y p]
    | true => simp [BitVec.xor_assoc, BitVec.xor_comm y p, ← BitVec.xor_assoc p p y]

/-- A bit-step of the REFLECTED convention is linear in the register. -/
theorem stepReflected_xor (x y : Word) :
    stepReflected p (x ^^^ y) = stepReflected p x ^^^ stepReflected p y := by
  simp only [stepReflected, BitVec.getLsbD_xor, BitVec.ushiftRight_xor_distrib]
  exact ite_xor_linear p _ _ _ _

/-- A bit-step of the NONREFLECTED convention is linear in the register. -/
theorem stepNonreflected_xor (x y : Word) :
    stepNonreflected p (x ^^^ y) = stepNonreflected p x ^^^ stepNonreflected p y := by
  simp only [stepNonreflected, BitVec.getLsbD_xor, BitVec.shiftLeft_xor_distrib]
  exact ite_xor_linear p _ _ _ _

/-- Bit-steps of the REFLECTED convention only shift a register whose tested bits are 0. -/
theorem repeatStep_reflected_of_low_zero {n : Nat} {r : Word} (h : ∀ j < n, r.getLsbD j = false) :
    repeatStep (stepReflected p) n r = r >>> n := by
  induction n generalizing r with
  | zero => simp [repeatStep]
  | succ n ih =>
    have hstep : stepReflected p r = r >>> 1 := by
      rw [stepReflected, h 0 (Nat.succ_pos n), if_neg Bool.false_ne_true]
    rw [repeatStep, hstep, ih fun j hj => ?_, ← BitVec.shiftRight_add, Nat.add_comm]
    rw [BitVec.getLsbD_ushiftRight, Nat.add_comm]
    exact h _ (Nat.succ_lt_succ hj)

/-- Bit-steps of the NONREFLECTED convention only shift a register whose tested bits are 0. -/
theorem repeatStep_nonreflected_of_high_zero {n : Nat} {r : Word} (h : ∀ j < n, r.getLsbD (31 - j) = false) :
    repeatStep (stepNonreflected p) n r = r <<< n := by
  induction n generalizing r with
  | zero => simp [repeatStep]
  | succ n ih =>
    have hstep : stepNonreflected p r = r <<< 1 := by
      rw [stepNonreflected, h 0 (Nat.succ_pos n), if_neg Bool.false_ne_true]
    rw [repeatStep, hstep, ih fun j hj => ?_, ← BitVec.shiftLeft_add, Nat.add_comm]
    rw [BitVec.getLsbD_shiftLeft, Nat.sub_sub, h _ (Nat.succ_lt_succ hj), Bool.and_false]

/-! ## The laws of the table (R126) -/

/-- The entry at `0x80` of a reflected table: seven shifts bring the bit to bit 0, where it is tested. -/
theorem buildReflected_entry_0x80 : (buildReflected p).entry 0x80 = p := by
  rw [buildReflected_entry, repeatStep_add 7 1, repeatStep_reflected_of_low_zero p (n := 7) (by decide)]
  simp [repeatStep, stepReflected]

/-- The entry at `0x01` of a non-reflected table: seven shifts bring the bit to bit 31, where it is tested. -/
theorem buildNonreflected_entry_0x01 : (buildNonreflected p).entry 0x01 = p := by
  rw [buildNonreflected_entry, repeatStep_add 7 1, repeatStep_nonreflected_of_high_zero p (n := 7) (by decide)]
  simp [repeatStep, stepNonreflected]

/-- A reflected table is linear in its index. -/
theorem buildReflected_entry_xor (a b : Byte) :
    (buildReflected p).entry (a ^^^ b) = (buildReflected p).entry a ^^^ (buildReflected p).entry b := by
  simp only [buildReflected_entry, BitVec.zeroExtend_eq_setWidth, BitVec.setWidth_xor]
  exact repeatStep_xor (stepReflected_xor p) 8 _ _

/-- A non-reflected table is linear in its index. -/
theorem buildNonreflected_entry_xor (a b : Byte) :
    (buildNonreflected p).entry (a ^^^ b) = (buildNonreflected p).entry a ^^^ (buildNonreflected p).entry b := by
  simp only [buildNonreflected_entry, BitVec.zeroExtend_eq_setWidth, BitVec.setWidth_xor, BitVec.shiftLeft_xor_distrib]
  exact repeatStep_xor (stepNonreflected_xor p) 8 _ _

/-- A reflected table has entry 0 at index 0: no tested bit is 1. -/
theorem buildReflected_entry_zero : (buildReflected p).entry 0x00 = 0 := by
  rw [buildReflected_entry, repeatStep_reflected_of_low_zero p (by decide)]
  rfl

/-- A non-reflected table has entry 0 at index 0: no tested bit is 1. -/
theorem buildNonreflected_entry_zero : (buildNonreflected p).entry 0x00 = 0 := by
  rw [buildNonreflected_entry, repeatStep_nonreflected_of_high_zero p (by decide)]
  rfl

/-! ## The fold is polynomial division (R142) -/

/-- The fold of NORMAL divides: the low byte takes the bit-steps through the table, the rest only shifts. -/
theorem fold_buildReflected (r : Word) (b : Byte) :
    fold .normal (buildReflected p) r b = repeatStep (stepReflected p) 8 (r ^^^ b.zeroExtend 32) := by
  have hsplit : r ^^^ b.zeroExtend 32 =
      ((r ^^^ b.zeroExtend 32).extractLsb' 0 8).zeroExtend 32 ^^^ (r >>> 8 <<< 8) := by
    apply BitVec.eq_of_getLsbD_eq
    intro j hj
    by_cases h8 : j < 8
    · simp [hj, h8]
    · simp [hj, h8, BitVec.getLsbD_of_ge b j (by omega), show 8 + (j - 8) = j by omega]
  have hrest : repeatStep (stepReflected p) 8 (r >>> 8 <<< 8) = r >>> 8 := by
    rw [repeatStep_reflected_of_low_zero p fun j hj => by simp [hj]]
    apply BitVec.eq_of_getLsbD_eq
    intro j hj
    by_cases h24 : 8 + j < 32
    · simp [h24]
    · simp [BitVec.getLsbD_of_ge r (8 + j) (by omega)]
  calc fold .normal (buildReflected p) r b
      = repeatStep (stepReflected p) 8 (((r ^^^ b.zeroExtend 32).extractLsb' 0 8).zeroExtend 32) ^^^ (r >>> 8) :=
        congrArg (· ^^^ r >>> 8) (buildReflected_entry p _)
    _ = repeatStep (stepReflected p) 8
          (((r ^^^ b.zeroExtend 32).extractLsb' 0 8).zeroExtend 32 ^^^ (r >>> 8 <<< 8)) := by
        rw [repeatStep_xor (stepReflected_xor p), hrest]
    _ = repeatStep (stepReflected p) 8 (r ^^^ b.zeroExtend 32) := by rw [← hsplit]

/-- The fold of MPEG2 divides: the high byte takes the bit-steps through the table, the rest only shifts. -/
theorem fold_buildNonreflected (r : Word) (b : Byte) :
    fold .mpeg2 (buildNonreflected p) r b =
      repeatStep (stepNonreflected p) 8 (r ^^^ (b.zeroExtend 32 <<< 24)) := by
  have hsplit : r ^^^ (b.zeroExtend 32 <<< 24) =
      ((r.extractLsb' 24 8 ^^^ b).zeroExtend 32 <<< 24) ^^^ (r <<< 8 >>> 8) := by
    apply BitVec.eq_of_getLsbD_eq
    intro j hj
    by_cases h24 : j < 24
    · simp [hj, h24, show 8 + j < 32 by omega]
    · simp [hj, h24, show ¬ 8 + j < 32 by omega, show j - 24 < 8 by omega, show 24 + (j - 24) = j by omega]
  have hrest : repeatStep (stepNonreflected p) 8 (r <<< 8 >>> 8) = r <<< 8 := by
    rw [repeatStep_nonreflected_of_high_zero p fun j hj => by
      simp [show ¬ 8 + (31 - j) < 32 by omega]]
    apply BitVec.eq_of_getLsbD_eq
    intro j hj
    by_cases h8 : j < 8
    · simp [h8]
    · simp [h8, hj, show 8 + (j - 8) < 32 by omega]
  calc fold .mpeg2 (buildNonreflected p) r b
      = repeatStep (stepNonreflected p) 8 ((r.extractLsb' 24 8 ^^^ b).zeroExtend 32 <<< 24) ^^^ (r <<< 8) :=
        congrArg (· ^^^ r <<< 8) (buildNonreflected_entry p _)
    _ = repeatStep (stepNonreflected p) 8
          (((r.extractLsb' 24 8 ^^^ b).zeroExtend 32 <<< 24) ^^^ (r <<< 8 >>> 8)) := by
        rw [repeatStep_xor (stepNonreflected_xor p), hrest]
    _ = repeatStep (stepNonreflected p) 8 (r ^^^ (b.zeroExtend 32 <<< 24)) := by rw [← hsplit]

end

/-- Settles O46: the tables are linear as the bit-steps are, and a lone bit is tested at the last step. -/
theorem tableLaws : Obligations.TableLaws := fun p =>
  ⟨buildReflected_entry_zero p, buildNonreflected_entry_zero p, buildReflected_entry_xor p,
    buildNonreflected_entry_xor p, buildReflected_entry_0x80 p, buildNonreflected_entry_0x01 p⟩

/-- Settles O47: for every polynomial, and so for that of each variant. -/
theorem foldIsBitwiseDivision : Obligations.FoldIsBitwiseDivision := fun r b =>
  ⟨fun p => fold_buildReflected p r b, fun p => fold_buildNonreflected p r b,
    fold_buildReflected (poly .normal) r b, fold_buildNonreflected (poly .mpeg2) r b⟩

end Sys2Proof.Machine
end

section
/-! PROOFS about what every command does (10_state.md sections 2 to 4, 20_memory.md R76, 60_exceptions.md R181, R185):
its effect on each channel, as one function of that channel and DATA, and the frame of the rest. -/

namespace Sys2Proof.Machine

/-! ## A command on one channel -/

/-- What an accepted command makes of a channel that it selects: a function of the channel and of DATA
(40_table_builder.md R124, 41_accumulator.md R144 to R147). -/
def channelAfter (i : Instr) (data : Word) (k : Channel) : Channel :=
  match i with
  | .nop => k
  | .init _ v => { variant := v, bound := true, armed := false, crc := k.crc, table := buildTable v }
  | .start _ => { k with crc := initValue k.variant, armed := true }
  | .updb _ b => k.absorb [b]
  | .updw _ n => k.absorb (dataBytes data n.toNat)
  | .updm _ b => k.absorb [b]
  | .final _ => k
  | .tread _ _ => k
  | .clrerr => k

section
variable {i j : Instr} {s s' t u : State} {d : Nat} {k l : Channel}

/-- An effect changes a selected channel by `channelAfter` and leaves any other. -/
theorem effect_getElem? (he : Effect s i t) (d : Nat) :
    t.chans[d]? = s.chans[d]?.map fun k => if i.touches d then channelAfter i s.data k else k := by
  cases hk : s.chans[d]? with
  | none =>
    rw [List.getElem?_eq_none_iff] at hk
    exact List.getElem?_eq_none ((effect_nch he).trans_le hk)
  | some k =>
    obtain ⟨l, hl, hstay, hchange⟩ := effect_channel he d k hk
    rw [hl, Option.map_some]
    cases hd : i.touches d with
    | false => exact congrArg some (hstay hd)
    | true =>
      have hl' := hchange hd
      cases i with
      | nop | init | final | tread | clrerr => exact congrArg some hl'
      | start => exact congrArg some hl'.2
      | updb | updw | updm => exact congrArg some hl'.2.2

/-- A command changes a channel by `channelAfter` when it is accepted and selects the channel, and else leaves it. -/
theorem exec_getElem? (h : exec i s = .next t) (d : Nat) :
    t.chans[d]? = s.chans[d]?.map fun k => if accepted i s && i.touches d then channelAfter i s.data k else k := by
  obtain ⟨u, hu, ⟨ha, he⟩ | ⟨ha, e, rfl, -⟩⟩ := exec_effect_or_error i s
  · cases h.symm.trans hu
    simpa [ha] using effect_getElem? he d
  · cases h.symm.trans hu
    simp [ha]

/-- Every command ends in a next state (60_exceptions.md R181, R186). -/
theorem exec_total (i : Instr) (s : State) : ∃ t, exec i s = .next t := by
  obtain ⟨t, ht, -⟩ := exec_effect_or_error i s
  exact ⟨t, ht⟩

/-- The commands after the first go on from the state it ends in. -/
theorem execAll_cons {is : List Instr} (h : exec i s = .next t) : execAll (i :: is) s = execAll is t := by
  rw [execAll, h]

/-! ## The frame -/

/-- What no effect changes. -/
theorem effect_frame (he : Effect s i t) :
    t.data = s.data ∧ t.inputs = s.inputs ∧ t.response = s.response ∧ t.freeDraws = s.freeDraws := by
  cases he <;> exact ⟨rfl, rfl, rfl, rfl⟩

/-- Only CLRERR's effect touches the error record, so the others change nothing of STATUS but RVALID (R185). -/
theorem effect_status (he : Effect s i t) (hi : i ≠ .clrerr) :
    t.status = { s.status with rvalid := t.status.rvalid } := by
  cases he with
  | clrerr => exact absurd rfl hi
  | nop | init | start | updb | updw | updm | final | tread => rfl

/-- Only the effects of FINAL and TREAD write RESULT and RVALID. -/
theorem effect_result (he : Effect s i t) (hf : ∀ c, i ≠ .final c) (ht : ∀ c x, i ≠ .tread c x) :
    t.result = s.result ∧ t.status.rvalid = s.status.rvalid := by
  cases he with
  | final => exact absurd rfl (hf _)
  | tread => exact absurd rfl (ht _ _)
  | nop | init | start | updb | updw | updm | clrerr => exact ⟨rfl, rfl⟩

/-- What no command changes. -/
theorem exec_frame (h : exec i s = .next t) :
    t.data = s.data ∧ t.inputs = s.inputs ∧ t.response = s.response ∧ t.freeDraws = s.freeDraws ∧ t.nch = s.nch := by
  obtain ⟨u, hu, ⟨-, he⟩ | ⟨-, e, rfl, -⟩⟩ := exec_effect_or_error i s
  · cases h.symm.trans hu
    obtain ⟨hdata, hinputs, hresponse, hdraws⟩ := effect_frame he
    exact ⟨hdata, hinputs, hresponse, hdraws, effect_nch he⟩
  · cases h.symm.trans hu
    exact ⟨rfl, rfl, rfl, rfl, rfl⟩

/-- Only FINAL and TREAD write RESULT and RVALID. -/
theorem exec_result (h : exec i s = .next t) (hf : ∀ c, i ≠ .final c) (ht : ∀ c x, i ≠ .tread c x) :
    t.result = s.result ∧ t.status.rvalid = s.status.rvalid := by
  obtain ⟨u, hu, ⟨-, he⟩ | ⟨-, e, rfl, -⟩⟩ := exec_effect_or_error i s
  · cases h.symm.trans hu
    exact effect_result he hf ht
  · cases h.symm.trans hu
    exact ⟨rfl, Status.recordError_rvalid _ e⟩

/-- Only INIT changes VARIANT, BOUND or TABLE, and only INIT and START change ARMED. -/
theorem channelAfter_binding (hi : ∀ d v, i ≠ .init d v) (data : Word) (k : Channel) :
    (channelAfter i data k).variant = k.variant ∧ (channelAfter i data k).bound = k.bound ∧
      (channelAfter i data k).table = k.table ∧ ((∀ d, i ≠ .start d) → (channelAfter i data k).armed = k.armed) := by
  cases i with
  | init c v => exact absurd rfl (hi c v)
  | start c => exact ⟨rfl, rfl, rfl, fun hs => absurd rfl (hs c)⟩
  | nop | updb | updw | updm | final | tread | clrerr => exact ⟨rfl, rfl, rfl, fun _ => rfl⟩

/-- Only START and the folds change CRC. -/
theorem channelAfter_crc (hs : ∀ d, i ≠ .start d) (hb : ∀ d b, i ≠ .updb d b) (hw : ∀ d n, i ≠ .updw d n)
    (hm : ∀ m b, i ≠ .updm m b) (data : Word) (k : Channel) : (channelAfter i data k).crc = k.crc := by
  cases i with
  | start c => exact absurd rfl (hs c)
  | updb c b => exact absurd rfl (hb c b)
  | updw c n => exact absurd rfl (hw c n)
  | updm m b => exact absurd rfl (hm m b)
  | nop | init | final | tread | clrerr => rfl

/-- Settles O28: a rejected command takes an error, an accepted one has its effect. -/
theorem raisingCommandsChangeOnlyStatus : Obligations.RaisingCommandsChangeOnlyStatus := by
  intro i s
  refine ⟨fun hrej => ?_, fun hacc => ?_⟩
  · obtain ⟨e, he, -⟩ := exec_rejected hrej
    exact ⟨e, he⟩
  · obtain ⟨t, ht, he⟩ := exec_accepted hacc
    exact ⟨t, ht, effect_status he⟩

/-- Settles O40: the frame of an accepted command is that of its effect, and an error writes only the error record. -/
theorem commandFrame : Obligations.CommandFrame := by
  intro i s t h
  obtain ⟨hdata, hinputs, hresponse, hdraws, hnch⟩ := exec_frame h
  refine ⟨hdata, hinputs, hresponse, hdraws, hnch, exec_result h, fun hi hacc => ?_, fun c k hk => ?_⟩
  · obtain ⟨u, hu, he⟩ := exec_accepted hacc
    cases h.symm.trans hu
    rw [effect_status he hi]
    exact ⟨rfl, rfl, rfl, rfl⟩
  · have hl := exec_getElem? h c
    rw [hk, Option.map_some] at hl
    refine ⟨_, hl, fun hd => by simp [hd], fun hi => ?_, fun hs hb hw hm => ?_⟩
    · obtain ⟨hvariant, hbound, htable, harmed⟩ := channelAfter_binding hi s.data k
      split
      · exact ⟨hvariant, hbound, fun x => by rw [htable], harmed⟩
      · exact ⟨rfl, rfl, fun _ => rfl, fun _ => rfl⟩
    · split
      · exact channelAfter_crc hs hb hw hm s.data k
      · rfl

/-! ## Commands that select no channel in common (R76) -/

/-- The checks of a command read the channels it selects, and no others. -/
theorem accepted_congr (h : ∀ d, i.touches d = true → s.chans[d]? = s'.chans[d]?) : accepted i s = accepted i s' := by
  have hready : ∀ d b a, i.touches d = true → s.ready d b a = s'.ready d b a := fun d b a hd => by
    rw [State.ready, State.ready, h d hd]
  cases i with
  | nop | clrerr => rfl
  | updm m b =>
    have hbit : ∀ d, (!selects m d || s.ready d true true) = (!selects m d || s'.ready d true true) := fun d => by
      cases hd : selects m d with
      | false => rfl
      | true => rw [hready d true true hd]
    simp only [accepted, hbit]
  | init c | start c | updb c | updw c | final c | tread c =>
    rw [accepted_of_channel rfl, accepted_of_channel rfl, hready c.toNat _ _ (beq_self_eq_true c.toNat)]

/-- A command after another that selects none of its channels changes each channel as it would have done before it. -/
theorem exec_exec_getElem? (hij : ∀ d, ¬ (i.touches d = true ∧ j.touches d = true)) (ht : exec i s = .next t)
    (hu : exec j t = .next u) (d : Nat) :
    u.chans[d]? = (t.chans[d]?).map fun k => if accepted j s && j.touches d then channelAfter j s.data k else k := by
  have hacc : accepted j t = accepted j s :=
    accepted_congr fun c hc => exec_chans_of_not_touches (Bool.eq_false_iff.2 fun hi => hij c ⟨hi, hc⟩) ht
  rw [exec_getElem? hu, hacc, (exec_frame ht).1]

/-- Settles O44: what each command does to a channel does not depend on the other, and at most one of them selects
it. -/
theorem commandsOnDifferentChannelsCommute : Obligations.CommandsOnDifferentChannelsCommute := by
  intro i j s hij
  obtain ⟨s₁, h₁⟩ := exec_total i s
  obtain ⟨t, ht⟩ := exec_total j s₁
  obtain ⟨s₂, h₂⟩ := exec_total j s
  obtain ⟨u, hu⟩ := exec_total i s₂
  refine ⟨t, u, (execAll_cons h₁).trans (execAll_cons ht), (execAll_cons h₂).trans (execAll_cons hu),
    List.ext_getElem? fun d => ?_⟩
  rw [exec_exec_getElem? hij h₁ ht, exec_exec_getElem? (fun d h => hij d h.symm) h₂ hu, exec_getElem? h₁,
    exec_getElem? h₂, Option.map_map, Option.map_map]
  congr 1
  funext k
  cases hi : i.touches d with
  | false => simp
  | true =>
    have hj : j.touches d = false := Bool.eq_false_iff.2 fun hj => hij d ⟨hi, hj⟩
    simp [hj]

end

end Sys2Proof.Machine
end

section
/-! PROOFS about commands performed one after the other (41_accumulator.md R146, R148, R154; 20_memory.md R73): a list
of UPDB, START then FINAL, and repeated transactions. -/

namespace Sys2Proof.Machine

section
variable {s t : State} {c : BitVec 4} {k : Channel}

/-! ## The commands on a channel that passes their checks -/

/-- START on a bound channel (R144). -/
theorem exec_start (hk : s.chans[c.toNat]? = some k) (hb : k.bound = true) :
    exec (.start c) s = .next (s.setChannel c.toNat { k with crc := initValue k.variant, armed := true }) :=
  finish_map_ok (requireBound_ok hk hb)

/-- UPDB on an armed channel (R145). -/
theorem exec_updb (hk : s.chans[c.toNat]? = some k) (hb : k.bound = true) (ha : k.armed = true) (b : Byte) :
    exec (.updb c b) s = .next (s.setChannel c.toNat (k.absorb [b])) :=
  finish_map_ok (requireArmed_ok hk hb ha)

/-- UPDW on an armed channel (R146). -/
theorem exec_updw_armed {n : BitVec 3} (hn : n.toNat ≤ 4) (hk : s.chans[c.toNat]? = some k) (hb : k.bound = true)
    (ha : k.armed = true) :
    exec (.updw c n) s = .next (s.setChannel c.toNat (k.absorb (dataBytes s.data n.toNat))) :=
  (exec_updw hn c s).trans (finish_map_ok (requireArmed_ok hk hb ha))

/-- FINAL on an armed channel (R150). -/
theorem exec_final (hk : s.chans[c.toNat]? = some k) (hb : k.bound = true) (ha : k.armed = true) :
    exec (.final c) s = .next (s.setResult (k.crc ^^^ xorout k.variant)) :=
  finish_map_ok (requireArmed_ok hk hb ha)

/-- TREAD on a bound channel (40_table_builder.md R125). -/
theorem exec_tread (hk : s.chans[c.toNat]? = some k) (hb : k.bound = true) (x : Byte) :
    exec (.tread c x) s = .next (s.setResult (k.table.entry x)) :=
  finish_map_ok (requireBound_ok hk hb)

/-- A channel that is there is what is read after it is written. -/
theorem setChannel_getElem?_self {d : Nat} (hk : s.chans[d]? = some k) (l : Channel) :
    (s.setChannel d l).chans[d]? = some l := by
  rw [State.setChannel_chans, List.getElem?_set_self (List.getElem?_eq_some_iff.1 hk).1]

/-- Of two writes to a channel the second stays. -/
theorem setChannel_setChannel (d : Nat) (k l : Channel) : (s.setChannel d k).setChannel d l = s.setChannel d l := by
  simp [State.setChannel]

/-! ## A list of UPDB on one channel (R146) -/

/-- A UPDB for each byte folds the bytes in order. -/
theorem execAll_updb (hk : s.chans[c.toNat]? = some k) (hb : k.bound = true) (ha : k.armed = true) (bs : List Byte) :
    execAll (bs.map fun b => .updb c b) s = .next (s.setChannel c.toNat (k.absorb bs)) := by
  induction bs generalizing s k with
  | nil => rw [absorb_nil, setChannel_same hk, List.map_nil, execAll]
  | cons b bs ih =>
    rw [List.map_cons, execAll_cons (exec_updb hk hb ha b),
      ih (k := k.absorb [b]) (setChannel_getElem?_self hk _) hb ha, setChannel_setChannel, ← absorb_append,
      List.singleton_append]

/-- Settles O41: both fold the same bytes into the channel, in order. -/
theorem updwIsTheByteCommandsInOrder : Obligations.UpdwIsTheByteCommandsInOrder := by
  intro s c n hacc
  obtain ⟨hwf, k, hk, hb, ha⟩ := (accepted_armed (i := .updw c n) (c := c) nofun rfl rfl rfl).1 hacc
  rw [exec_updw_armed (of_decide_eq_true hwf) hk hb ha, execAll_updb hk hb ha]

/-! ## A UPDB on each of several channels (R148) -/

/-- One byte folded into every channel of a list of channels. -/
def foldListed (s : State) (cs : List (BitVec 4)) (b : Byte) : State :=
  { s with chans := s.chans.mapIdx fun j k => if ∃ c ∈ cs, c.toNat = j then k.absorb [b] else k }

/-- A fold into one more channel, which the list does not hold. -/
theorem foldListed_setChannel {cs : List (BitVec 4)} (hk : s.chans[c.toNat]? = some k) (hc : c ∉ cs) (b : Byte) :
    foldListed (s.setChannel c.toNat (k.absorb [b])) cs b = foldListed s (c :: cs) b := by
  have hchans : (foldListed (s.setChannel c.toNat (k.absorb [b])) cs b).chans = (foldListed s (c :: cs) b).chans := by
    apply List.ext_getElem?
    intro j
    simp only [foldListed, State.setChannel_chans, List.getElem?_mapIdx, List.exists_mem_cons_iff]
    by_cases hj : c.toNat = j
    · subst hj
      have hnot : ¬ ∃ d ∈ cs, d.toNat = c.toNat := fun ⟨d, hd, heq⟩ => hc (BitVec.eq_of_toNat_eq heq ▸ hd)
      rw [List.getElem?_set_self (List.getElem?_eq_some_iff.1 hk).1, hk]
      simp [hnot]
    · rw [List.getElem?_set_ne hj]
      simp [hj]
  exact congrArg (fun chans => { s with chans := chans }) hchans

/-- A UPDB for each channel of a list of different armed channels folds the byte into each. -/
theorem execAll_updb_each {cs : List (BitVec 4)} (hnodup : cs.Nodup)
    (harmed : ∀ c ∈ cs, ∃ k, s.chans[c.toNat]? = some k ∧ k.bound = true ∧ k.armed = true) (b : Byte) :
    execAll (cs.map fun c => .updb c b) s = .next (foldListed s cs b) := by
  induction cs generalizing s with
  | nil =>
    have hsame : (foldListed s [] b).chans = s.chans := List.ext_getElem? fun j => by simp [foldListed]
    exact congrArg (fun chans => Host.Outcome.next { s with chans := chans }) hsame.symm
  | cons c cs ih =>
    obtain ⟨hc, hnodup⟩ := List.nodup_cons.1 hnodup
    obtain ⟨k, hk, hb, ha⟩ := harmed c List.mem_cons_self
    rw [List.map_cons, execAll_cons (exec_updb hk hb ha b), ih hnodup fun d hd => ?_, foldListed_setChannel hk hc]
    have hne : c.toNat ≠ d.toNat := fun heq => hc (BitVec.eq_of_toNat_eq heq ▸ hd)
    rw [State.setChannel_chans, List.getElem?_set_ne hne]
    exact harmed d (List.mem_cons_of_mem c hd)

/-- Folding into the channels of a mask is folding into those of a list of them. -/
theorem foldSelected_eq_foldListed {m : BitVec 16} {cs : List (BitVec 4)}
    (hcs : ∀ c, c ∈ cs ↔ m.getLsbD c.toNat = true) (s : State) (b : Byte) :
    s.foldSelected m b = foldListed s cs b := by
  have hsel : ∀ j, selects m j = true ↔ ∃ c ∈ cs, c.toNat = j := fun j => by
    constructor
    · intro hj
      have h16 : j < 2 ^ 4 := BitVec.lt_of_getLsbD hj
      have htoNat : (BitVec.ofNat 4 j).toNat = j := by rw [BitVec.toNat_ofNat, Nat.mod_eq_of_lt h16]
      exact ⟨BitVec.ofNat 4 j, (hcs _).2 (htoNat.symm ▸ hj), htoNat⟩
    · rintro ⟨c, hc, rfl⟩
      exact (hcs c).1 hc
  simp only [State.foldSelected, foldListed, hsel]

/-- Settles O42: UPDM folds into the channels of its mask, and so does a UPDB for each, in whatever order they are
listed. -/
theorem updmIsUpdbOnEachChannelInAnyOrder : Obligations.UpdmIsUpdbOnEachChannelInAnyOrder := by
  intro s m b cs hacc hnodup hcs
  have harmed := accepted_updm.1 hacc
  have hexec : exec (.updm m b) s = .next (s.foldSelected m b) := finish_map_ok (requireSelected_ok.2 harmed)
  rw [hexec, execAll_updb_each hnodup fun c hc => harmed _ ((hcs c).1 hc), foldSelected_eq_foldListed hcs]

/-! ## START then FINAL (R154) -/

/-- Settles O51: START gives the channel its initial value, which is what FINAL then finds. -/
theorem emptyStreamChecksum : Obligations.EmptyStreamChecksum := by
  refine ⟨fun s c k hk hb => ?_, rfl, rfl⟩
  have hstart := exec_start hk hb
  have hfinal := exec_final (setChannel_getElem?_self hk { k with crc := initValue k.variant, armed := true }) hb rfl
  exact ⟨_, (execAll_cons hstart).trans (execAll_cons hfinal), rfl, rfl⟩

/-! ## Repeated transactions (20_memory.md R73) -/

/-- A read repeated at once gives the same response: neither the events to come nor the last response is read. -/
theorem step_read_again {off : BitVec 5} {bits : Nat} {rest : List HostEvent}
    (hin : s.inputs = .transfer (.read off bits) :: .transfer (.read off bits) :: rest) (hstep : step s = .next t) :
    step t = .next { t with inputs := rest } := by
  rw [step_transfer hin, performTransfer] at hstep
  cases hv : busRead { s with inputs := .transfer (.read off bits) :: rest } off bits with
  | error f =>
    rw [hv] at hstep
    cases hstep
  | ok v =>
    rw [hv] at hstep
    cases hstep
    exact step_read rfl hv

/-- Settles O11: each of them leaves the block so that its repetition finds what the first one found; a repeated UPDB
finds the register that the first one left. -/
theorem repeatedTransactions : Obligations.RepeatedTransactions := by
  refine ⟨fun s t off bits rest => step_read_again, fun s t v rest hin hstep => ?_, fun s c b k hk hb ha => ?_,
    fun s t c hacc hexec => ?_, fun s t c x hacc hexec => ?_⟩
  · cases (step_data hin).symm.trans hstep
    exact step_data rfl
  · exact execAll_updb hk hb ha [b, b]
  · obtain ⟨-, k, hk, hb, ha⟩ := (accepted_armed (i := .final c) (c := c) nofun rfl rfl rfl).1 hacc
    cases (exec_final hk hb ha).symm.trans hexec
    exact exec_final (s := s.setResult _) hk hb ha
  · obtain ⟨-, k, hk, hb⟩ := (accepted_bound (i := .tread c x) (c := c) rfl rfl rfl).1 hacc
    cases (exec_tread hk hb x).symm.trans hexec
    exact exec_tread (s := s.setResult _) hk hb x

end

end Sys2Proof.Machine
end

section
/-! PROOFS about one step of the block (10_state.md sections 3 and 4, 20_memory.md section 1, 60_exceptions.md
section 1): which event changes DATA, RESULT and each flag, and how the events and the window reach the block. -/

namespace Sys2Proof.Machine

/-! ## What reaches the block (20_memory.md R60, R63; log entries 4 and 8) -/

/-- A word is a table word of 32 bits. -/
theorem tableWord_toNat (w : Word) : Decode.tableWord 32 w.toNat = w := by
  rw [Decode.tableWord, Nat.mod_eq_of_lt w.isLt, BitVec.ofNat_toNat, BitVec.setWidth_eq]

/-- A whole-word write of a command's word to CMD runs the command. -/
theorem step_command_ok {s : State} {rest : List HostEvent} {w : Word} {i : Instr}
    (hin : s.inputs = .transfer (.write 0x00 32 0xF w) :: rest) (hd : decode w = .ok i) :
    step s = respond .done (exec i { s with inputs := rest }) := by
  rw [step_command hin, performCommand, hd]

/-- Settles O8: the step performs the word, which decodes to the command; `withFetchWord` places the write of the word
itself. -/
theorem stepRunsTheDecodedCommand : Obligations.StepRunsTheDecodedCommand := by
  refine ⟨fun s rest w i => step_command_ok, fun s w i hd => step_command_ok (rest := s.inputs) ?_ hd⟩
  rw [State.withFetchWord_inputs, tableWord_toNat]

/-- Settles O15: the idle step. -/
theorem idleBlockStaysAsItWas : Obligations.IdleBlockStaysAsItWas := fun _ => step_idle

/-- Settles O16: the offset is the distance from BASE when that is below 32, and there is none otherwise. -/
theorem windowRoutesItsOffsets : Obligations.WindowRoutesItsOffsets := by
  refine ⟨fun base off h => ?_, fun base addr h => if_neg fun hin => ?_⟩
  · rw [windowOffset, if_pos ⟨Nat.le_add_right base off, Nat.add_lt_add_left h base⟩, Nat.add_sub_cancel_left]
  · omega

/-! ## The ways of a step -/

/-- The ways in which a step from `s` ends, by what its event does to the block; the events to come and the response
of the state it ends in are left open. -/
inductive StepWay (s : State) : State → Prop where
  /-- No command and no reset: at most DATA is written. -/
  | quiet {v : Word} (inputs : List HostEvent) (response : Option Response) (hword : s.pendingWord = none)
      (hreset : s.resetNext = false)
      (hdata : v = s.data ∨ ∃ rest, s.inputs = .transfer (.write 0x04 32 0xF v) :: rest) :
      StepWay s { s with inputs := inputs, data := v, response := response }
  /-- An accepted command has its effect. -/
  | command {i : Instr} {w : Word} {u : State} (inputs : List HostEvent) (response : Option Response)
      (hword : s.pendingWord = some w) (hdecode : decode w = .ok i) (haccepted : accepted i s = true)
      (heffect : Effect s i u) : StepWay s { u with inputs := inputs, response := response }
  /-- A word that raises a command error has it recorded. -/
  | error {w : Word} {e : CmdError} (inputs : List HostEvent) (response : Option Response)
      (hword : s.pendingWord = some w) (herror : s.errorNext = true) (habsent : e.code = .channel → s.nch ≤ e.ch.toNat)
      (hpresent : e.code = .unbound ∨ e.code = .notStarted → e.ch.toNat < s.nch) :
      StepWay s { s with inputs := inputs, status := s.status.recordError e, response := response }
  /-- The reset input. -/
  | reset (inputs : List HostEvent) (hreset : s.resetNext = true) : StepWay s { s with inputs := inputs }.resetBlock

section
variable {s t u : State} {i : Instr} {w : Word}

/-- A next event that writes a command's word makes that command the pending one. -/
theorem pending_of_decode (hword : s.pendingWord = some w) (hd : decode w = .ok i) : s.pending = some i :=
  pending_eq_some.2 ⟨w, hword, hd⟩

/-- Decoding raises E_OPCODE or E_FIELD (30_encoding.md R97). -/
theorem code_of_decode_error {e : CmdError} (h : decode w = .error e) : e.code = .opcode ∨ e.code = .field := by
  rw [decode] at h
  split at h
  next =>
    cases h
    exact .inl rfl
  next =>
    refine .inr ?_
    split at h
    next =>
      cases h
      rfl
    next =>
      split at h
      next =>
        cases h
        rfl
      next => cases h

/-- The events to come play no part in an effect. -/
theorem Effect.withInputs {es : List HostEvent} (h : Effect { s with inputs := es } i u) :
    Effect s i { u with inputs := s.inputs } := by
  cases h with
  | nop => exact .nop
  | init v h => exact .init v h
  | start h hb => exact .start h hb
  | updb b h hb ha => exact .updb b h hb ha
  | updw hn h hb ha => exact .updw hn h hb ha
  | updm b h => exact .updm b h
  | final h hb ha => exact .final h hb ha
  | tread x h hb => exact .tread x h hb
  | clrerr => exact .clrerr

/-- Every step ends in one of the four ways. -/
theorem step_way (h : step s = .next t) : StepWay s t := by
  obtain ⟨hin, rfl⟩ | ⟨off, bits, rest, v, hin, -, rfl⟩ | ⟨rest, v, hin, rfl⟩ | ⟨rest, w, u, hin, hu, rfl⟩ |
    ⟨a, rest, hin, rfl⟩ := step_cases h
  · exact .quiet t.inputs t.response (by rw [State.pendingWord, hin]) (by rw [State.resetNext, hin]) (.inl rfl)
  · exact .quiet rest _ (by rw [State.pendingWord, hin]) (by rw [State.resetNext, hin]) (.inl rfl)
  · exact .quiet rest _ (by rw [State.pendingWord, hin]; rfl) (by rw [State.resetNext, hin]) (.inr ⟨rest, hin⟩)
  · have hword : s.pendingWord = some w := pendingWord_eq_some.2 ⟨rest, hin⟩
    obtain ⟨i, u', hd, hu', hacc, he⟩ | ⟨i, e, hd, hu', hrej, hfits⟩ | ⟨e, hd, hu'⟩ :=
      performCommand_cases w { s with inputs := rest }
    · cases hu.symm.trans hu'
      exact .command (u := { u with inputs := s.inputs }) u.inputs _ hword hd hacc he.withInputs
    · cases hu.symm.trans hu'
      have hrej' : accepted i s = false := hrej
      exact .error rest _ hword (by simp [State.errorNext, hword, hd, hrej']) hfits.absent hfits.present
    · cases hu.symm.trans hu'
      refine .error rest _ hword (by simp [State.errorNext, hword, hd]) (fun hc => ?_) (fun hc => ?_)
      · obtain hcode | hcode := code_of_decode_error hd <;> cases hcode.symm.trans hc
      · obtain hcode | hcode := code_of_decode_error hd <;> obtain hc | hc := hc <;> cases hcode.symm.trans hc
  · exact .reset rest (resetNext_iff.2 ⟨a, rest, hin⟩)

/-! ## What changes DATA and RESULT (10_state.md R36, R37) -/

/-- Settles O25: by the ways of a step. -/
theorem onlyTheHostWritesData : Obligations.OnlyTheHostWritesData := by
  intro s t h
  cases step_way h with
  | quiet _ _ _ _ hdata => exact hdata.elim .inl fun hw => .inr (.inr hw)
  | command _ _ _ _ _ heffect => exact .inl (effect_frame heffect).1
  | error => exact .inl rfl
  | reset _ hreset => exact .inr (.inl ⟨hreset, rfl⟩)

/-- Settles O26: by the ways of a step, and by which effects write RESULT. -/
theorem onlyFinalAndTreadWriteResult : Obligations.OnlyFinalAndTreadWriteResult := by
  intro s t h
  cases step_way h with
  | quiet | error => exact .inl rfl
  | reset _ hreset => exact .inr (.inl ⟨hreset, rfl⟩)
  | command _ _ hword hdecode _ heffect =>
    have hpending := pending_of_decode hword hdecode
    cases heffect with
    | nop | init | start | updb | updw | updm | clrerr => exact .inl rfl
    | final hk hb ha => exact .inr (.inr (.inl ⟨_, _, hpending, hk, hb, ha, rfl⟩))
    | tread x hk hb => exact .inr (.inr (.inr ⟨_, x, _, hpending, hk, hb, rfl⟩))

/-! ## What sets and clears each flag (10_state.md R33) -/

/-- An accepted command raises no error. -/
theorem errorNext_of_accepted (hword : s.pendingWord = some w) (hd : decode w = .ok i) (ha : accepted i s = true) :
    s.errorNext = false := by
  simp [State.errorNext, hword, hd, ha]

/-- Settles O24: a recorded error would have stayed, and a raised one would have been recorded. -/
theorem cleanStatusMeansNoErrorWasRaised : Obligations.CleanStatusMeansNoErrorWasRaised := by
  intro s t h herr hclr hreset
  refine ⟨Bool.eq_false_iff.2 fun hs => ?_, ?_⟩
  · have hkept := (step_holdsRecordOf h hs hclr hreset).err
    cases herr.symm.trans hkept
  · cases step_way h with
    | quiet _ _ hword => rw [State.errorNext, hword]
    | command _ _ hword hdecode haccepted => exact errorNext_of_accepted hword hdecode haccepted
    | error => cases herr.symm.trans (Status.recordError_err _ _)
    | reset _ hr => cases hreset.symm.trans hr

/-- ERR and EMULT are set by an error and cleared by CLRERR or the reset input. -/
theorem errorFlags_change (h : step s = .next t) :
    (s.status.err = false → t.status.err = true → s.errorNext = true) ∧
    (s.status.err = true → t.status.err = false → s.pending = some .clrerr ∨ s.resetNext = true) ∧
    (s.status.emult = false → t.status.emult = true → s.errorNext = true ∧ s.status.err = true) ∧
    (s.status.emult = true → t.status.emult = false → s.pending = some .clrerr ∨ s.resetNext = true) := by
  cases step_way h with
  | quiet => simp +contextual
  | error _ _ _ herror => simp +contextual [herror]
  | reset _ hreset => simp +contextual [hreset]
  | @command i _ u _ _ hword hdecode _ heffect =>
    have hpending := pending_of_decode hword hdecode
    by_cases hi : i = .clrerr
    · cases hi
      cases heffect
      simp [hpending]
    · have hstatus : u.status.err = s.status.err ∧ u.status.emult = s.status.emult := by
        rw [effect_status heffect hi]
        exact ⟨rfl, rfl⟩
      simp +contextual [hstatus]

/-- RVALID is set by an accepted FINAL or TREAD and cleared by the reset input. -/
theorem rvalid_change (h : step s = .next t) :
    (s.status.rvalid = false → t.status.rvalid = true → ∃ i, s.pending = some i ∧ accepted i s = true ∧
      ((∃ c, i = .final c) ∨ ∃ c x, i = .tread c x)) ∧
    (s.status.rvalid = true → t.status.rvalid = false → s.resetNext = true) := by
  cases step_way h with
  | quiet => simp +contextual
  | error => simp +contextual
  | reset _ hreset => simp +contextual [hreset]
  | command _ _ hword hdecode haccepted heffect =>
    have hpending := pending_of_decode hword hdecode
    cases heffect with
    | nop | init | start | updb | updw | updm | clrerr => simp +contextual
    | final => exact ⟨fun _ _ => ⟨_, hpending, haccepted, .inl ⟨_, rfl⟩⟩, fun _ => nofun⟩
    | tread => exact ⟨fun _ _ => ⟨_, hpending, haccepted, .inr ⟨_, _, rfl⟩⟩, fun _ => nofun⟩

/-- BOUND is set by INIT and ARMED by START; ARMED is cleared by INIT, and both by the reset input. -/
theorem channelFlags_change (h : step s = .next t) {c : Nat} {k l : Channel} (hk : s.chans[c]? = some k)
    (hl : t.chans[c]? = some l) :
    (k.bound = false → l.bound = true → ∃ d v, s.pending = some (.init d v) ∧ d.toNat = c) ∧
    (k.bound = true → l.bound = false → s.resetNext = true) ∧
    (k.armed = false → l.armed = true → ∃ d, s.pending = some (.start d) ∧ d.toNat = c) ∧
    (k.armed = true → l.armed = false →
      (∃ d v, s.pending = some (.init d v) ∧ d.toNat = c) ∨ s.resetNext = true) := by
  cases step_way h with
  | quiet | error =>
    cases hk.symm.trans hl
    simp +contextual
  | reset _ hreset =>
    obtain ⟨r, T, rfl⟩ := exists_eq_atReset_of_mem_resetBlock (List.mem_of_getElem? hl)
    simp [hreset]
  | @command i _ u _ _ hword hdecode _ heffect =>
    have hpending := pending_of_decode hword hdecode
    have hu := (effect_getElem? heffect c).symm.trans hl
    rw [hk] at hu
    obtain rfl := Option.some.inj hu
    cases hd : i.touches c with
    | false => simp +contextual
    | true =>
      cases i with
      | init d v => exact ⟨fun _ _ => ⟨d, v, hpending, beq_iff_eq.1 hd⟩, fun _ => nofun, fun _ => nofun,
          fun _ _ => .inl ⟨d, v, hpending, beq_iff_eq.1 hd⟩⟩
      | start d => simp +contextual [channelAfter, hpending, beq_iff_eq.1 hd]
      | nop | updb | updw | updm | final | tread | clrerr => simp +contextual [channelAfter]

/-- Settles O22: by the ways of a step, flag by flag. -/
theorem flagsChangeOnlyAsListed : Obligations.FlagsChangeOnlyAsListed := by
  intro s t h
  obtain ⟨herr, herr', hemult, hemult'⟩ := errorFlags_change h
  obtain ⟨hrvalid, hrvalid'⟩ := rvalid_change h
  exact ⟨herr, herr', hemult, hemult', hrvalid, hrvalid', fun c k l hk hl => channelFlags_change h hk hl⟩

end

end Sys2Proof.Machine
end

section
/-! PROOFS of the invariant of the channels, STATUS and RESULT (10_state.md R28, R38): it holds after power-up, and each
way of a step keeps it. -/

namespace Sys2Proof.Machine

section
variable {s t : State} {i : Instr} {k : Channel}

/-! ## Legal channels (R28) -/

/-- A channel as reset leaves it is legal: it is neither bound nor armed. -/
theorem Channel.Legal.atReset (r : Word) (T : Table) : (Channel.atReset r T).Legal := ⟨nofun, nofun, nofun⟩

/-- A channel after INIT is legal: the table is that of the variant, and the channel is not armed. -/
theorem Channel.Legal.afterInit (k : Channel) (v : Variant) :
    ({ k with table := buildTable v, variant := v, bound := true, armed := false } : Channel).Legal :=
  ⟨nofun, fun _ => rfl, nofun⟩

/-- A bound channel after START is legal: the register holds the fold of no byte. -/
theorem Channel.Legal.afterStart (h : k.Legal) (hb : k.bound = true) :
    ({ k with crc := initValue k.variant, armed := true } : Channel).Legal :=
  ⟨fun _ => hb, h.bound_table, fun _ => ⟨[], rfl⟩⟩

/-- A bound channel stays legal when bytes are folded into it: the register holds the fold of more bytes. -/
theorem Channel.Legal.absorb (h : k.Legal) (hb : k.bound = true) (bs : List Byte) : (k.absorb bs).Legal := by
  refine ⟨h.armed_bound, h.bound_table, fun ha => ?_⟩
  obtain ⟨before, hcrc⟩ := h.armed_crc ha
  refine ⟨before ++ bs, ?_⟩
  calc foldseq k.variant k.table k.crc bs
      = foldseq k.variant (buildTable k.variant)
          (foldseq k.variant (buildTable k.variant) (initValue k.variant) before) bs := by
        rw [← hcrc, h.bound_table hb]
    _ = foldseq k.variant (buildTable k.variant) (initValue k.variant) (before ++ bs) :=
        (foldseq_append _ _ _ _ _).symm

/-- Every effect keeps the channels legal. -/
theorem effect_keeps_chans_legal (he : Effect s i t) (hs : ∀ k ∈ s.chans, k.Legal) : ∀ k ∈ t.chans, k.Legal := by
  have hset : ∀ (c : Nat) (l : Channel), l.Legal → ∀ k ∈ (s.setChannel c l).chans, k.Legal := fun c l hl k hk =>
    (List.mem_or_eq_of_mem_set hk).elim (hs k) fun h => h ▸ hl
  cases he with
  | nop | final | tread | clrerr => exact hs
  | init v h => exact hset _ _ (.afterInit _ v)
  | start h hb => exact hset _ _ ((hs _ (List.mem_of_getElem? h)).afterStart hb)
  | updb b h hb => exact hset _ _ ((hs _ (List.mem_of_getElem? h)).absorb hb [b])
  | updw _ h hb => exact hset _ _ ((hs _ (List.mem_of_getElem? h)).absorb hb _)
  | updm b h =>
    intro k hk
    obtain ⟨j, hj, rfl⟩ := List.mem_mapIdx.1 hk
    have hlegal := hs _ (List.getElem_mem hj)
    split
    next hm =>
      obtain ⟨l, hl, hb, -⟩ := h j hm
      cases (List.getElem?_eq_getElem hj).symm.trans hl
      exact hlegal.absorb hb [b]
    next => exact hlegal

/-! ## A legal STATUS (R38, 60_exceptions.md R180, R184) -/

section
variable {st : Status} {n : Nat}

/-- The error numbers are 1 to 5 (60_exceptions.md R180). -/
theorem errNumber_range (c : ErrCode) : (errNumber c).toNat ≤ 5 ∧ errNumber c ≠ 0 := by cases c <;> decide

/-- STATUS after reset is legal. -/
theorem Status.Legal.atReset (n : Nat) : Status.atReset.Legal n :=
  ⟨by decide, fun _ => ⟨rfl, rfl, rfl⟩, nofun, nofun, nofun⟩

/-- STATUS after CLRERR is legal. -/
theorem Status.Legal.clearErrors (st : Status) (n : Nat) : st.clearErrors.Legal n :=
  ⟨Nat.zero_le 5, fun _ => ⟨rfl, rfl, rfl⟩, nofun, nofun, nofun⟩

/-- RVALID plays no part in a legal STATUS. -/
theorem Status.Legal.setResultValid (h : st.Legal n) : st.setResultValid.Legal n :=
  ⟨h.ecode_le, h.clear_zero, h.err_code, h.ech_absent, h.ech_exists⟩

/-- STATUS stays legal when an error is recorded whose channel fits its code. -/
theorem Status.Legal.recordError (h : st.Legal n) {e : CmdError} (habsent : e.code = .channel → n ≤ e.ch.toNat)
    (hpresent : e.code = .unbound ∨ e.code = .notStarted → e.ch.toNat < n) : (st.recordError e).Legal n := by
  cases herr : st.err with
  | true =>
    rw [recordError_of_err_true herr]
    exact ⟨h.ecode_le, fun hf => (by cases herr.symm.trans hf), h.err_code, h.ech_absent, h.ech_exists⟩
  | false =>
    rw [recordError_of_err_false herr]
    exact ⟨(errNumber_range e.code).1, nofun, fun _ => (errNumber_range e.code).2,
      fun hc => habsent (errNumber_injective hc),
      fun hc => hpresent (hc.imp (@errNumber_injective _ _) (@errNumber_injective _ _))⟩

end

/-- Every effect keeps STATUS legal. -/
theorem effect_keeps_status_legal (he : Effect s i t) {n : Nat} (hs : s.status.Legal n) : t.status.Legal n := by
  cases he with
  | nop | init | start | updb | updw | updm => exact hs
  | final | tread => exact hs.setResultValid
  | clrerr => exact .clearErrors s.status n

/-- Every effect keeps RESULT at 0 until RVALID is set. -/
theorem effect_keeps_result_valid (he : Effect s i t) (hs : s.status.rvalid = false → s.result = 0) :
    t.status.rvalid = false → t.result = 0 := by
  cases he with
  | nop | init | start | updb | updw | updm | clrerr => exact hs
  | final | tread => exact nofun

/-! ## The invariant -/

/-- The invariant holds after power-up. -/
theorem powerUp_inv (n : Config.ChannelCount) : (State.powerUp n).Inv := by
  refine ⟨?_, fun k hk => ?_, .atReset _, fun _ => rfl⟩
  · rw [State.powerUp_nch]
    exact n.property
  · rw [eq_atReset_of_mem_powerUp hk]
    exact .atReset 0 _

/-- The reset input gives a state that meets the invariant, whatever the state was. -/
theorem reset_inv (hrange : Config.minChannels ≤ s.nch ∧ s.nch ≤ Config.maxChannels) : s.resetBlock.Inv := by
  refine ⟨?_, fun k hk => ?_, .atReset _, fun _ => rfl⟩
  · rw [State.resetBlock_nch]
    exact hrange
  · obtain ⟨r, T, rfl⟩ := exists_eq_atReset_of_mem_resetBlock hk
    exact .atReset r T

/-- Settles O19: every channel and STATUS are as reset leaves them. -/
theorem resetStateMeetsTheInvariant : Obligations.ResetStateMeetsTheInvariant :=
  ⟨powerUp_inv Config.defaultCount, powerUp_inv⟩

/-- Settles O20: by the ways of a step. -/
theorem stepKeepsTheInvariant : Obligations.StepKeepsTheInvariant := by
  intro s t hs h
  cases step_way h with
  | quiet => exact ⟨hs.nch_range, hs.chans_legal, hs.status_legal, hs.result_valid⟩
  | error _ _ _ _ habsent hpresent =>
    exact ⟨hs.nch_range, hs.chans_legal, hs.status_legal.recordError habsent hpresent,
      fun hr => hs.result_valid ((Status.recordError_rvalid _ _).symm.trans hr)⟩
  | reset => exact reset_inv hs.nch_range
  | command _ _ _ _ _ heffect =>
    have hnch := effect_nch heffect
    have hchans := effect_keeps_chans_legal heffect hs.chans_legal
    have hstatus := effect_keeps_status_legal heffect hs.status_legal
    have hresult := effect_keeps_result_valid heffect hs.result_valid
    exact ⟨hnch.symm ▸ hs.nch_range, hchans, hnch.symm ▸ hstatus, hresult⟩

end

end Sys2Proof.Machine
end

section
/-! PROOFS that the contents which the spec leaves unspecified are never observed (10_state.md sections 5 and 6): two
states that agree on the rest take the same checks, the same effects and the same responses. -/

namespace Sys2Proof.Machine

/-! ## Channels that look the same -/

section
variable {k l : Channel}

/-- INIT makes two channels look the same. -/
theorem Channel.SameVisible.afterInit (k l : Channel) (v : Variant) :
    Channel.SameVisible { k with table := buildTable v, variant := v, bound := true, armed := false }
      { l with table := buildTable v, variant := v, bound := true, armed := false } :=
  ⟨rfl, rfl, rfl, nofun, fun _ => rfl⟩

/-- START keeps two channels looking the same: it writes the same register. -/
theorem Channel.SameVisible.afterStart (h : k.SameVisible l) :
    Channel.SameVisible { k with crc := initValue k.variant, armed := true }
      { l with crc := initValue l.variant, armed := true } :=
  ⟨h.variant, h.bound, rfl, fun _ => congrArg initValue h.variant, h.table⟩

/-- A fold keeps two bound channels looking the same: an armed one has the same register, and the tables are the
same. -/
theorem Channel.SameVisible.absorb (h : k.SameVisible l) (hb : k.bound = true) (bs : List Byte) :
    (k.absorb bs).SameVisible (l.absorb bs) := by
  refine ⟨h.variant, h.bound, h.armed, fun ha => ?_, h.table⟩
  rw [Channel.absorb_crc, Channel.absorb_crc, h.variant, h.table hb, h.crc ha]

/-- Two channels as reset leaves them look the same. -/
theorem Channel.SameVisible.atReset (r r' : Word) (T T' : Table) :
    (Channel.atReset r T).SameVisible (Channel.atReset r' T') := ⟨rfl, rfl, rfl, nofun, nofun⟩

end

/-! ## Lists related place by place -/

section
variable {R : Channel → Channel → Prop} {ks ls : List Channel}

/-- Lists are related place by place when they are as long and have related channels in each place. -/
theorem forall₂_of_getElem? (hlength : ks.length = ls.length)
    (h : ∀ (j : Nat) (k l : Channel), ks[j]? = some k → ls[j]? = some l → R k l) : List.Forall₂ R ks ls :=
  List.forall₂_of_length_eq_of_get hlength fun j hk hl =>
    h j _ _ (List.getElem?_eq_getElem hk) (List.getElem?_eq_getElem hl)

/-- Lists that are related place by place have no channel in a place, or related ones. -/
theorem getElem?_of_forall₂ (h : List.Forall₂ R ks ls) (j : Nat) :
    (ks[j]? = none ∧ ls[j]? = none) ∨ ∃ k l, ks[j]? = some k ∧ ls[j]? = some l ∧ R k l := by
  have hlength := h.length_eq
  by_cases hj : j < ks.length
  · have hj' : j < ls.length := hlength ▸ hj
    exact .inr ⟨_, _, List.getElem?_eq_getElem hj, List.getElem?_eq_getElem hj', h.get hj hj'⟩
  · exact .inl ⟨List.getElem?_eq_none (by omega), List.getElem?_eq_none (by omega)⟩

/-- Channels in the same place of related lists are related. -/
theorem related_of_forall₂ (h : List.Forall₂ R ks ls) {j : Nat} {k l : Channel} (hk : ks[j]? = some k)
    (hl : ls[j]? = some l) : R k l := by
  obtain ⟨hnone, -⟩ | ⟨k', l', hk', hl', hkl⟩ := getElem?_of_forall₂ h j
  · cases hk.symm.trans hnone
  · cases hk.symm.trans hk'
    cases hl.symm.trans hl'
    exact hkl

end

section
variable {s u : State} {c : BitVec 4} {m : BitVec 16}

/-! ## States that look the same -/

/-- The number of channels is visible. -/
theorem State.SameVisible.nch (h : s.SameVisible u) : s.nch = u.nch := h.chans.length_eq

/-- States stay looking the same with channels that do. -/
theorem State.SameVisible.withChans (h : s.SameVisible u) {ks ls : List Channel}
    (hchans : List.Forall₂ Channel.SameVisible ks ls) :
    State.SameVisible { s with chans := ks } { u with chans := ls } :=
  ⟨hchans, h.data, h.result, h.status, h.inputs, h.response⟩

/-- States stay looking the same when a channel of each is replaced by channels that do. -/
theorem State.SameVisible.setChannel (h : s.SameVisible u) (d : Nat) {k l : Channel} (hkl : k.SameVisible l) :
    (s.setChannel d k).SameVisible (u.setChannel d l) := by
  refine h.withChans (forall₂_of_getElem? (by simpa using h.chans.length_eq) fun j k' l' hk' hl' => ?_)
  rw [List.getElem?_set] at hk' hl'
  by_cases hj : d = j
  · simp only [hj, if_true, Option.ite_none_right_eq_some] at hk' hl'
    cases hk'.2
    cases hl'.2
    exact hkl
  · rw [if_neg hj] at hk' hl'
    exact related_of_forall₂ h.chans hk' hl'

/-- States stay looking the same with the same RESULT written. -/
theorem State.SameVisible.setResult (h : s.SameVisible u) (v : Word) : (s.setResult v).SameVisible (u.setResult v) :=
  ⟨h.chans, h.data, rfl, congrArg Status.setResultValid h.status, h.inputs, h.response⟩

/-- States stay looking the same with the same error taken. -/
theorem State.SameVisible.takeCmdError (h : s.SameVisible u) (e : CmdError) :
    (s.takeCmdError e).SameVisible (u.takeCmdError e) :=
  ⟨h.chans, h.data, h.result, congrArg (Status.recordError · e) h.status, h.inputs, h.response⟩

/-- States stay looking the same with their error records cleared. -/
theorem State.SameVisible.clearErrors (h : s.SameVisible u) : s.clearErrors.SameVisible u.clearErrors :=
  ⟨h.chans, h.data, h.result, congrArg Status.clearErrors h.status, h.inputs, h.response⟩

/-- Two results of a step that look the same: the same fault or refusal, or states that look the same. -/
inductive SameOutcome : Host.Outcome State Fault Refusal → Host.Outcome State Fault Refusal → Prop where
  | next {t v : State} (h : t.SameVisible v) : SameOutcome (.next t) (.next v)
  | fault (f : Fault) : SameOutcome (.fault f) (.fault f)

/-! ## The checks (60_exceptions.md R182) -/

/-- Two answers of a check on two states: the same error, or values that are related. -/
inductive SameAnswer {α : Type} (R : α → α → Prop) : Except CmdError α → Except CmdError α → Prop where
  | error (e : CmdError) : SameAnswer R (.error e) (.error e)
  | ok {a b : α} (h : R a b) : SameAnswer R (.ok a) (.ok b)

/-- The E_CHANNEL check answers the same, or channels that look the same. -/
theorem requireChannel_sameAnswer (h : s.SameVisible u) (c : BitVec 4) :
    SameAnswer Channel.SameVisible (s.requireChannel c) (u.requireChannel c) := by
  obtain ⟨hs, hu⟩ | ⟨k, l, hs, hu, hkl⟩ := getElem?_of_forall₂ h.chans c.toNat
  · rw [requireChannel_none hs, requireChannel_none hu]
    exact .error _
  · rw [requireChannel_some hs, requireChannel_some hu]
    exact .ok hkl

/-- The checks down to E_UNBOUND answer the same, or bound channels that look the same. -/
theorem requireBound_sameAnswer (h : s.SameVisible u) (c : BitVec 4) :
    SameAnswer (fun k l => k.SameVisible l ∧ k.bound = true) (s.requireBound c) (u.requireBound c) := by
  have hr := requireChannel_sameAnswer h c
  rw [State.requireBound, State.requireBound]
  generalize s.requireChannel c = r at hr ⊢
  generalize u.requireChannel c = r' at hr ⊢
  cases hr with
  | error e => exact .error e
  | ok hkl =>
    simp only [← hkl.bound]
    split
    next hb => exact .ok ⟨hkl, hb⟩
    next => exact .error _

/-- The checks down to E_NOTSTARTED answer the same, or armed channels that look the same. -/
theorem requireArmed_sameAnswer (h : s.SameVisible u) (c : BitVec 4) :
    SameAnswer (fun k l => k.SameVisible l ∧ k.bound = true ∧ k.armed = true)
      (s.requireArmed c) (u.requireArmed c) := by
  have hr := requireBound_sameAnswer h c
  rw [State.requireArmed, State.requireArmed]
  generalize s.requireBound c = r at hr ⊢
  generalize u.requireBound c = r' at hr ⊢
  cases hr with
  | error e => exact .error e
  | ok h =>
    obtain ⟨hkl, hb⟩ := h
    simp only [← hkl.armed]
    split
    next ha => exact .ok ⟨hkl, hb, ha⟩
    next => exact .error _

/-- The scan of UPDM reads flags, which are visible. -/
theorem scanSelected_sameVisible {ks ls : List Channel} (h : List.Forall₂ Channel.SameVisible ks ls) (j : Nat) :
    scanSelected m j ks = scanSelected m j ls := by
  induction h generalizing j with
  | nil => rfl
  | cons hkl _ ih => rw [scanSelected, scanSelected, hkl.bound, hkl.armed, ih]

/-- The checks of UPDM answer the same. -/
theorem requireSelected_sameVisible (h : s.SameVisible u) : s.requireSelected m = u.requireSelected m := by
  rw [State.requireSelected, State.requireSelected, h.nch, scanSelected_sameVisible h.chans]

/-- A command whose checks answer alike and whose effects look the same ends in states that look the same. -/
theorem finish_map_sameOutcome {α : Type} {R : α → α → Prop} {r r' : Except CmdError α} {f g : α → State}
    (h : s.SameVisible u) (hr : SameAnswer R r r') (hfg : ∀ a b, R a b → (f a).SameVisible (g b)) :
    SameOutcome (s.finish (r.map f)) (u.finish (r'.map g)) := by
  cases hr with
  | error e => exact .next (h.takeCmdError e)
  | ok hab => exact .next (hfg _ _ hab)

/-- UPDM's fold keeps states looking the same when every selected channel is bound. -/
theorem State.SameVisible.foldSelected (h : s.SameVisible u)
    (hbound : ∀ j, m.getLsbD j = true → ∃ k, s.chans[j]? = some k ∧ k.bound = true ∧ k.armed = true) (b : Byte) :
    (s.foldSelected m b).SameVisible (u.foldSelected m b) := by
  refine h.withChans (forall₂_of_getElem? (by simpa using h.chans.length_eq) fun j k' l' hk' hl' => ?_)
  rw [List.getElem?_mapIdx] at hk' hl'
  obtain ⟨k, hk, rfl⟩ := Option.map_eq_some_iff.1 hk'
  obtain ⟨l, hl, rfl⟩ := Option.map_eq_some_iff.1 hl'
  have hkl := related_of_forall₂ h.chans hk hl
  cases hm : selects m j with
  | false => simpa using hkl
  | true =>
    obtain ⟨k'', hk'', hb, -⟩ := hbound j hm
    cases hk.symm.trans hk''
    simpa using hkl.absorb hb [b]

/-! ## A command, a transaction, a step -/

/-- A command does the same to states that look the same. -/
theorem exec_sameOutcome (h : s.SameVisible u) (i : Instr) : SameOutcome (exec i s) (exec i u) := by
  cases i with
  | nop => exact .next h
  | clrerr => exact .next h.clearErrors
  | init c v =>
    exact finish_map_sameOutcome h (requireChannel_sameAnswer h c) fun k l _ => h.setChannel _ (.afterInit k l v)
  | start c =>
    exact finish_map_sameOutcome h (requireBound_sameAnswer h c) fun _ _ ⟨hkl, _⟩ => h.setChannel _ hkl.afterStart
  | updb c b =>
    exact finish_map_sameOutcome h (requireArmed_sameAnswer h c) fun _ _ ⟨hkl, hb, _⟩ =>
      h.setChannel _ (hkl.absorb hb [b])
  | updw c n =>
    by_cases hn : n.toNat ≤ 4
    · rw [exec_updw hn, exec_updw hn, ← h.data]
      exact finish_map_sameOutcome h (requireArmed_sameAnswer h c) fun _ _ ⟨hkl, hb, _⟩ =>
        h.setChannel _ (hkl.absorb hb _)
    · have hill : 4 < n.toNat := Nat.lt_of_not_le hn
      simp only [exec, execUpdw, if_pos hill]
      exact .next (h.takeCmdError _)
  | updm m b =>
    simp only [exec, execUpdm, ← requireSelected_sameVisible h]
    cases hr : s.requireSelected m with
    | error e => exact .next (h.takeCmdError e)
    | ok => exact .next (h.foldSelected (requireSelected_ok.1 hr) b)
  | final c =>
    refine finish_map_sameOutcome h (requireArmed_sameAnswer h c) fun k l ⟨hkl, _, ha⟩ => ?_
    rw [hkl.crc ha, hkl.variant]
    exact h.setResult _
  | tread c x =>
    refine finish_map_sameOutcome h (requireBound_sameAnswer h c) fun k l ⟨hkl, hb⟩ => ?_
    rw [hkl.table hb]
    exact h.setResult _

/-- A command word does the same to states that look the same. -/
theorem performCommand_sameOutcome (h : s.SameVisible u) (w : Word) :
    SameOutcome (performCommand w s) (performCommand w u) := by
  rw [performCommand, performCommand]
  cases decode w with
  | ok i => exact exec_sameOutcome h i
  | error e => exact .next (h.takeCmdError e)

/-- A view of flags that are the same reads the same. -/
theorem channelBits_congr {f : Channel → Bool} {ks ls : List Channel} (h : List.Forall₂ (fun k l => f k = f l) ks ls)
    (n : Nat) : channelBits f n ks = channelBits f n ls := by
  induction h generalizing n with
  | nil => rfl
  | cons hkl _ ih => rw [channelBits, channelBits, hkl, ih]

/-- Every register reads the same in states that look the same. -/
theorem busRead_sameVisible (h : s.SameVisible u) (off : BitVec 5) (bits : Nat) :
    busRead s off bits = busRead u off bits := by
  have hchstat : chstatWord s = chstatWord u := by
    rw [chstatWord, chstatWord, channelBits_congr (h.chans.imp fun _ _ hkl => hkl.bound),
      channelBits_congr (h.chans.imp fun _ _ hkl => hkl.armed)]
  have hchvar : chvarWord s = chvarWord u :=
    channelBits_congr (h.chans.imp fun _ _ hkl => by rw [hkl.variant]) 0
  have hparam : paramWord s = paramWord u := by rw [paramWord_eq, paramWord_eq, h.nch]
  rw [busRead, busRead, h.data, h.result, h.status, hchstat, hchvar, hparam]

/-- A response given to results that look the same leaves them looking the same. -/
theorem respond_sameOutcome {x y : Host.Outcome State Fault Refusal} (h : SameOutcome x y) (r : Response) :
    SameOutcome (respond r x) (respond r y) := by
  cases h with
  | fault f => exact .fault f
  | next h => exact .next ⟨h.chans, h.data, h.result, h.status, h.inputs, rfl⟩

/-- A write does the same to states that look the same. -/
theorem busWrite_sameOutcome (h : s.SameVisible u) (off : BitVec 5) (bits : Nat) (strobes : BitVec 4) (v : Word) :
    SameOutcome (busWrite s off bits strobes v) (busWrite u off bits strobes v) := by
  rw [busWrite, busWrite]
  split
  next =>
    split
    next => exact performCommand_sameOutcome h v
    next => exact .next ⟨h.chans, rfl, h.result, h.status, h.inputs, h.response⟩
    next => exact .fault _
  next => exact .fault _

/-- A transaction does the same to states that look the same, with the same response. -/
theorem performTransfer_sameOutcome (h : s.SameVisible u) (tr : Transfer) :
    SameOutcome (performTransfer tr s) (performTransfer tr u) := by
  cases tr with
  | read off bits =>
    rw [performTransfer, performTransfer, busRead_sameVisible h]
    cases busRead u off bits with
    | ok v => exact respond_sameOutcome (.next h) _
    | error f => exact .fault f
  | write off bits strobes v => exact respond_sameOutcome (busWrite_sameOutcome h off bits strobes v) .done

/-- The reset input makes states with the same channels and events look the same. -/
theorem State.SameVisible.resetBlock (h : s.SameVisible u) : s.resetBlock.SameVisible u.resetBlock := by
  refine ⟨?_, rfl, rfl, rfl, h.inputs, rfl⟩
  refine forall₂_of_getElem? (by simpa using h.chans.length_eq) fun j k' l' hk' hl' => ?_
  obtain ⟨r, T, rfl⟩ := exists_eq_atReset_of_mem_resetBlock (List.mem_of_getElem? hk')
  obtain ⟨r', T', rfl⟩ := exists_eq_atReset_of_mem_resetBlock (List.mem_of_getElem? hl')
  exact .atReset r r' T T'

/-- A step does the same to states that look the same. -/
theorem step_sameOutcome (h : s.SameVisible u) : SameOutcome (step s) (step u) := by
  rw [step, step, ← h.inputs]
  cases s.inputs with
  | nil => exact .next h
  | cons e rest =>
    have hrest : State.SameVisible { s with inputs := rest } { u with inputs := rest } :=
      ⟨h.chans, h.data, h.result, h.status, rfl, h.response⟩
    cases e with
    | transfer tr => exact performTransfer_sameOutcome hrest tr
    | reset a => exact .next hrest.resetBlock

/-- Settles O21: a step does the same to states that look the same, whatever their unspecified contents. -/
theorem unspecifiedContentsAreNeverObserved : Obligations.UnspecifiedContentsAreNeverObserved := by
  intro s u h
  have hstep := step_sameOutcome h
  refine ⟨fun t ht => ?_, fun f hf => ?_⟩
  · rw [ht] at hstep
    generalize step u = y at hstep ⊢
    cases hstep with
    | next htv => exact ⟨_, rfl, htv⟩
  · rw [hf] at hstep
    generalize step u = y at hstep ⊢
    cases hstep
    rfl

end

end Sys2Proof.Machine
end

section
/-! PROOFS about a stream of bytes folded into one channel among other traffic (41_accumulator.md R151 to R153). -/

namespace Sys2Proof.Machine

section
variable {s t : State} {c : Nat} {k : Channel}

/-! ## One step of a stream -/

/-- An accepted command other than INIT or START leaves the channel with the bytes that it folds into it. -/
theorem channelAfter_eq_absorb {i : Instr} (hi : ∀ d v, i ≠ .init d v) (hs : ∀ d, i ≠ .start d)
    (ha : accepted i s = true) (hc : i.touches c = true) (k : Channel) :
    channelAfter i s.data k = k.absorb (foldedInto c i s) := by
  cases i with
  | init d v => exact absurd rfl (hi d v)
  | start d => exact absurd rfl (hs d)
  | nop | updb | updw | updm | final | tread | clrerr => simp [channelAfter, foldedInto, ha, hc]

/-- A word that raises an error folds nothing. -/
theorem streamed_of_errorNext (h : s.errorNext = true) (c : Nat) : s.streamed c = [] := by
  cases hpending : s.pending with
  | none => rw [State.streamed, hpending]
  | some i =>
    obtain ⟨w, hword, hd⟩ := pending_eq_some.1 hpending
    have hrej : accepted i s = false := by simpa [State.errorNext, hword, hd] using h
    simp [State.streamed, hpending, foldedInto, hrej]

/-- An undisturbed step that performs a command performs no INIT or START of the channel. -/
theorem not_init_or_start_of_undisturbed {i : Instr} (h : s.undisturbed c = true) (hp : s.pending = some i)
    (hc : i.touches c = true) : (∀ d v, i ≠ .init d v) ∧ ∀ d, i ≠ .start d := by
  rw [State.undisturbed, hp, Bool.and_eq_true] at h
  refine ⟨?_, ?_⟩
  · rintro d v rfl
    exact bne_iff_ne.1 h.2 (beq_iff_eq.1 hc)
  · rintro d rfl
    exact bne_iff_ne.1 h.2 (beq_iff_eq.1 hc)

/-- An undisturbed step folds its bytes into the channel and does nothing else to it. -/
theorem step_absorbs (h : s.undisturbed c = true) (hstep : step s = .next t) (hk : s.chans[c]? = some k) :
    t.chans[c]? = some (k.absorb (s.streamed c)) := by
  cases step_way hstep with
  | quiet _ _ hword =>
    rw [State.streamed, State.pending, hword]
    exact hk
  | error _ _ _ herror =>
    rw [streamed_of_errorNext herror]
    exact hk
  | reset _ hreset =>
    rw [State.undisturbed, hreset] at h
    cases h
  | @command i _ u _ _ hword hdecode haccepted heffect =>
    have hpending := pending_of_decode hword hdecode
    have hu := effect_getElem? heffect c
    rw [hk, Option.map_some] at hu
    rw [State.streamed, hpending]
    refine hu.trans (congrArg some ?_)
    cases hc : i.touches c with
    | false => simp [foldedInto, hc]
    | true =>
      obtain ⟨hi, hs⟩ := not_init_or_start_of_undisturbed h hpending hc
      exact channelAfter_eq_absorb hi hs haccepted hc k

/-! ## A run of steps (R152) -/

/-- A run folds its bytes into the channel, in order, and does nothing else to it. -/
theorem StreamRun.absorbs {bs : List Byte} (h : StreamRun c s bs t) (hk : s.chans[c]? = some k) :
    t.chans[c]? = some (k.absorb bs) := by
  induction h generalizing k with
  | refl s => exact hk
  | step hund hstep _ ih => rw [ih (step_absorbs hund hstep hk), absorb_append]

/-- Settles O48: either run leaves the channel with the same bytes folded into it. -/
theorem streamCutsDoNotMatter : Obligations.StreamCutsDoNotMatter := by
  intro c s s' t t' bs k hk hk' hrun hrun'
  have ht := hrun.absorbs hk
  exact ⟨ht, (hrun'.absorbs hk').trans ht.symm⟩

end

section
variable {s t : State} {c : BitVec 4} {k : Channel}

/-! ## The steps that START and FINAL take (R151, R153) -/

/-- A step performs the command that is pending. -/
theorem step_of_pending {i : Instr} (h : s.pending = some i) :
    ∃ rest, step s = respond .done (exec i { s with inputs := rest }) := by
  obtain ⟨w, hword, hd⟩ := pending_eq_some.1 h
  obtain ⟨rest, hin⟩ := pendingWord_eq_some.1 hword
  exact ⟨rest, step_command_ok hin hd⟩

/-- A step of START on a bound channel gives it its initial value and arms it. -/
theorem step_start (h : s.pending = some (.start c)) (hstep : step s = .next t) (hk : s.chans[c.toNat]? = some k)
    (hb : k.bound = true) : t.chans[c.toNat]? = some { k with crc := initValue k.variant, armed := true } := by
  obtain ⟨rest, hs⟩ := step_of_pending h
  rw [exec_start (s := { s with inputs := rest }) hk hb, respond_next] at hs
  cases hs.symm.trans hstep
  exact setChannel_getElem?_self hk _

/-- A step of FINAL on an armed channel puts the checksum so far in RESULT and leaves the channels. -/
theorem step_final (h : s.pending = some (.final c)) (hstep : step s = .next t) (hk : s.chans[c.toNat]? = some k)
    (hb : k.bound = true) (ha : k.armed = true) :
    t.result = k.crc ^^^ xorout k.variant ∧ t.status.rvalid = true ∧ t.chans = s.chans := by
  obtain ⟨rest, hs⟩ := step_of_pending h
  rw [exec_final (s := { s with inputs := rest }) hk hb ha, respond_next] at hs
  cases hs.symm.trans hstep
  exact ⟨rfl, rfl, rfl⟩

/-- Settles O49: the register goes from START's initial value through the bytes to FINAL, by the variant's own table. -/
theorem streamingEqualsOneShot : Obligations.StreamingEqualsOneShot := by
  intro c k s s1 s2 s3 bs hk hb htable hstart hstep1 hrun hfinal hstep3
  have h1 := step_start hstart hstep1 hk hb
  obtain ⟨hresult, hrvalid, -⟩ := step_final hfinal hstep3 (hrun.absorbs h1) hb rfl
  refine ⟨?_, hrvalid⟩
  calc s3.result = foldseq k.variant k.table (initValue k.variant) bs ^^^ xorout k.variant := hresult
    _ = crc k.variant bs := by rw [htable, crc]

/-- Settles O50: FINAL leaves the channel, and so does a run that folds nothing into it. -/
theorem finalizeIsIdempotent : Obligations.FinalizeIsIdempotent := by
  intro c s s1 s2 s3 hacc hp1 hstep1 hrun hp3 hstep3
  obtain ⟨-, k, hk, hb, ha⟩ := (accepted_armed (i := .final c) (c := c) nofun rfl rfl rfl).1 hacc
  obtain ⟨hresult1, -, hchans⟩ := step_final hp1 hstep1 hk hb ha
  have hk2 : s2.chans[c.toNat]? = some k := hrun.absorbs (hchans ▸ hk)
  obtain ⟨hresult3, -, -⟩ := step_final hp3 hstep3 hk2 hb ha
  exact ⟨hresult3.trans hresult1.symm, hchans⟩

end

end Sys2Proof.Machine
end

section
/-! PROOFS about the host's pseudo-instructions (30_encoding.md R103): a list of command words is a list of commands
performed one after the other, and the groups of UPDSPAN carry their bytes through DATA. -/

namespace Sys2Proof.Machine

section
variable {s t : State} {c : BitVec 4} {k : Channel} {es rest : List HostEvent}

/-! ## Commands read neither the events to come nor the last response -/

/-- A command whose effect leaves the events and the response alone ends the same whatever they are. -/
theorem finish_map_withHost {α : Type} {x : Except CmdError α} {f g : α → State} {r : Option Response}
    (hfg : ∀ a, g a = { f a with inputs := es, response := r }) (h : s.finish (x.map f) = .next t) :
    State.finish { s with inputs := es, response := r } (x.map g) = .next { t with inputs := es, response := r } := by
  cases x with
  | ok a =>
    cases h
    exact congrArg Host.Outcome.next (hfg a)
  | error e =>
    cases h
    rfl

/-- A command does the same to the block whatever events are to come and whatever the last response was. -/
theorem exec_withHost {i : Instr} {r : Option Response} (h : exec i s = .next t) :
    exec i { s with inputs := es, response := r } = .next { t with inputs := es, response := r } := by
  cases i with
  | nop | clrerr =>
    cases h
    rfl
  | init | start | updb | updm | final | tread => exact finish_map_withHost (fun _ => rfl) h
  | updw c n =>
    simp only [exec, execUpdw] at h ⊢
    split at h
    next hn =>
      cases h
      rw [if_pos hn]
      rfl
    next hn =>
      rw [if_neg hn]
      exact finish_map_withHost (fun _ => rfl) h

/-- Commands performed one after the other do the same to the block whatever events are to come and whatever the last
response was. -/
theorem execAll_withHost {is : List Instr} {r : Option Response} (h : execAll is s = .next t) :
    execAll is { s with inputs := es, response := r } = .next { t with inputs := es, response := r } := by
  induction is generalizing s with
  | nil =>
    cases h
    rfl
  | cons i is ih =>
    obtain ⟨u, hu⟩ := exec_total i s
    rw [execAll_cons hu] at h
    rw [execAll_cons (exec_withHost hu), ih h]

/-- Commands after others go on from the state those end in. -/
theorem execAll_append {is js : List Instr} (h : execAll is s = .next t) : execAll (is ++ js) s = execAll js t := by
  induction is generalizing s with
  | nil =>
    cases h
    rfl
  | cons i is ih =>
    obtain ⟨u, hu⟩ := exec_total i s
    rw [execAll_cons hu] at h
    rw [List.cons_append, execAll_cons hu, ih h]

/-! ## Runs of command words (20_memory.md R63) -/

/-- A run goes on from the state that its first part ends in. -/
theorem run_add {M : Host.Core} {m n : Nat} {s t : M.State} (h : M.run m s = .next t) :
    M.run (m + n) s = M.run n t := by
  induction m generalizing s with
  | zero =>
    cases h
    rw [Nat.zero_add]
  | succ m ih =>
    rw [Host.Core.run] at h
    rw [Nat.succ_add, Host.Core.run]
    split at h
    next u hu => exact ih h
    next => cases h
    next => cases h

/-- A run of one step is the step. -/
theorem run_one {M : Host.Core} (s : M.State) : M.run 1 s = M.step s := by
  rw [Host.Core.run]
  cases M.step s <;> rfl

/-- A run goes on from the state that its first step ends in. -/
theorem run_succ {n : Nat} (h : step s = .next t) : Host.Core.run core (n + 1) s = Host.Core.run core n t := by
  rw [Nat.add_comm]
  exact run_add (M := core) ((run_one (M := core) s).trans h)

/-- A step whose event is the line of a well-formed command performs the command. -/
theorem step_issue {i : Instr} (hwf : i.wellFormed = true) (h : exec i s = .next t) :
    step { s with inputs := issue i :: rest } = .next { t with inputs := rest, response := some .done } := by
  have hexec := exec_withHost (es := rest) (r := s.response) h
  exact (step_command_ok rfl (decode_encode hwf)).trans (congrArg (respond .done) hexec)

/-- A run of the lines of well-formed commands performs the commands. -/
theorem run_issue {is : List Instr} (hwf : ∀ i ∈ is, i.wellFormed = true) (h : execAll is s = .next t)
    (rest : List HostEvent) :
    ∃ r, Host.Core.run core is.length { s with inputs := is.map issue ++ rest } =
      .next { t with inputs := rest, response := r } := by
  induction is generalizing s t with
  | nil =>
    cases h
    exact ⟨s.response, rfl⟩
  | cons i is ih =>
    obtain ⟨u, hu⟩ := exec_total i s
    obtain ⟨hi, his⟩ := List.forall_mem_cons.1 hwf
    rw [execAll_cons hu] at h
    obtain ⟨r, hr⟩ := ih his (execAll_withHost (es := is.map issue ++ rest) (r := some .done) h)
    exact ⟨r, (run_succ (step_issue hi hu)).trans hr⟩

/-! ## COMPUTE -/

/-- The commands of COMPUTE. -/
def computeCommands (c : BitVec 4) (bs : List Byte) : List Instr :=
  .start c :: (bs.map fun b => .updb c b) ++ [.final c]

/-- COMPUTE is the lines of its commands. -/
theorem compute_eq (c : BitVec 4) (bs : List Byte) : compute c bs = (computeCommands c bs).map issue := by
  simp [compute, computeCommands]

/-- Every command of COMPUTE is well formed. -/
theorem computeCommands_wellFormed (c : BitVec 4) (bs : List Byte) :
    ∀ i ∈ computeCommands c bs, i.wellFormed = true := by
  simp only [computeCommands, List.cons_append, List.mem_cons, List.mem_append, List.mem_map, List.not_mem_nil,
    or_false]
  rintro i (rfl | ⟨b, -, rfl⟩ | rfl) <;> rfl

/-- The commands of COMPUTE on a bound channel fold the bytes from the initial value and put the checksum in RESULT. -/
theorem execAll_compute (hk : s.chans[c.toNat]? = some k) (hb : k.bound = true) (bs : List Byte) :
    execAll (computeCommands c bs) s =
      .next ((s.setChannel c.toNat ({ k with crc := initValue k.variant, armed := true }.absorb bs)).setResult
        (foldseq k.variant k.table (initValue k.variant) bs ^^^ xorout k.variant)) := by
  have hstarted := setChannel_getElem?_self hk { k with crc := initValue k.variant, armed := true }
  have hbytes := execAll_updb hstarted hb rfl bs
  rw [setChannel_setChannel] at hbytes
  rw [computeCommands, List.cons_append, execAll_cons (exec_start hk hb), execAll_append hbytes]
  exact execAll_cons (exec_final (setChannel_getElem?_self hk _) hb rfl)

/-- Settles O52: the run performs START, the bytes and FINAL, and the channel's table is its variant's. -/
theorem computeMacroGivesTheChecksum : Obligations.ComputeMacroGivesTheChecksum := by
  intro s c k bs rest hk hb htable
  obtain ⟨r, hrun⟩ := run_issue (computeCommands_wellFormed c bs) (execAll_compute hk hb bs) rest
  have hlength : (computeCommands c bs).length = bs.length + 2 := by simp [computeCommands]
  rw [hlength, ← compute_eq] at hrun
  refine ⟨_, hrun, ?_, rfl, rfl, rfl, fun d hd => List.getElem?_set_ne hd.symm⟩
  exact congrArg (fun T => foldseq k.variant T (initValue k.variant) bs ^^^ xorout k.variant) htable

/-! ## BOOT -/

/-- INIT on a channel of the block (40_table_builder.md R124). -/
theorem exec_init (hk : s.chans[c.toNat]? = some k) (v : Variant) :
    exec (.init c v) s =
      .next (s.setChannel c.toNat { k with table := buildTable v, variant := v, bound := true, armed := false }) :=
  finish_map_ok (requireChannel_some hk)

/-- Settles O54: the run performs the two INIT, each on its own channel. -/
theorem bootMacroBindsBothVariants : Obligations.BootMacroBindsBothVariants := by
  intro s rest hnch
  obtain ⟨k, hk⟩ := (exists_channel_iff s 0).2 (Nat.lt_of_lt_of_le Nat.zero_lt_two hnch)
  obtain ⟨l, hl⟩ := (exists_channel_iff s 1).2 hnch
  have hinit0 := exec_init (c := 0) hk .normal
  have hl' : (s.setChannel 0 { k with table := buildTable .normal, variant := .normal, bound := true, armed := false }
      ).chans[1]? = some l := (List.getElem?_set_ne Nat.zero_ne_one).trans hl
  have hinit1 := exec_init (c := 1) hl' .mpeg2
  obtain ⟨r, hrun⟩ := run_issue (is := [.init 0 .normal, .init 1 .mpeg2]) (by simp [Instr.wellFormed])
    ((execAll_cons hinit0).trans (execAll_cons hinit1)) rest
  refine ⟨_, { k with table := buildTable .normal, variant := .normal, bound := true, armed := false },
    { l with table := buildTable .mpeg2, variant := .mpeg2, bound := true, armed := false }, hrun, ?_,
    setChannel_getElem?_self hl' _, rfl, rfl, rfl, rfl, rfl, rfl, rfl, rfl, rfl, rfl⟩
  exact (List.getElem?_set_ne Nat.one_ne_zero).trans (setChannel_getElem?_self hk _)

/-! ## UPDSPAN -/

/-- The lines of one group of UPDSPAN: its bytes packed in DATA, and UPDW of their count. -/
def groupEvents (c : BitVec 4) (g : List Byte) : List HostEvent :=
  [wr .data (packBytes g), issue (.updw c (BitVec.ofNat 3 g.length))]

/-- UPDSPAN is the lines of its groups. -/
theorem updspan_eq (c : BitVec 4) (bs : List Byte) : updspan c bs = (groupsOfFour bs).flatMap (groupEvents c) := rfl

/-- The groups of UPDSPAN hold its bytes in order. -/
theorem groupsOfFour_flatten : ∀ bs : List Byte, (groupsOfFour bs).flatten = bs
  | [] => rfl
  | [_] => rfl
  | [_, _] => rfl
  | [_, _, _] => rfl
  | a :: b :: c :: d :: bs => by rw [groupsOfFour, List.flatten_cons, groupsOfFour_flatten bs]; rfl

/-- A group of UPDSPAN holds at most four bytes. -/
theorem length_le_of_mem_groupsOfFour : ∀ bs : List Byte, ∀ g ∈ groupsOfFour bs, g.length ≤ 4
  | [], _, h => by cases h
  | [_], _, h | [_, _], _, h | [_, _, _], _, h => by
    cases List.mem_singleton.1 h
    simp
  | _ :: _ :: _ :: _ :: bs, g, h => by
    obtain rfl | h := List.mem_cons.1 h
    · rfl
    · exact length_le_of_mem_groupsOfFour bs g h

/-- The first byte lane of packed bytes is the first byte (20_memory.md R68). -/
theorem lane_packBytes_zero (b : Byte) (bs : List Byte) : lane (packBytes (b :: bs)) 0 = b := by
  apply BitVec.eq_of_getLsbD_eq
  intro j hj
  simp [lane, packBytes, hj, show j < 32 by omega]

/-- The later byte lanes of packed bytes are those of the later bytes (20_memory.md R68). -/
theorem lane_packBytes_succ (b : Byte) (bs : List Byte) {j : Nat} (hj : j < 3) :
    lane (packBytes (b :: bs)) (j + 1) = lane (packBytes bs) j := by
  apply BitVec.eq_of_getLsbD_eq
  intro n hn
  have hbit : 8 * (j + 1) + n < 32 := by omega
  have hbyte : b.getLsbD (8 * (j + 1) + n) = false := BitVec.getLsbD_of_ge b _ (by omega)
  have hshift : 8 * (j + 1) + n - 8 = 8 * j + n := by omega
  rw [lane, lane, packBytes, BitVec.getLsbD_extractLsb', BitVec.getLsbD_extractLsb', BitVec.getLsbD_or,
    BitVec.getLsbD_shiftLeft, BitVec.zeroExtend_eq_setWidth, BitVec.getLsbD_setWidth, hbyte, hshift]
  simp only [hbit, show ¬ 8 * (j + 1) + n < 8 by omega, decide_true, decide_false, Bool.not_false, Bool.and_false,
    Bool.false_or, Bool.true_and]

/-- Up to four bytes packed for DATA are its first stream bytes (20_memory.md R68). -/
theorem dataBytes_packBytes {g : List Byte} (h : g.length ≤ 4) : dataBytes (packBytes g) g.length = g := by
  induction g with
  | nil => rfl
  | cons b bs ih =>
    have h3 : bs.length ≤ 3 := Nat.le_of_succ_le_succ h
    have htail : (List.range bs.length).map (fun j => lane (packBytes (b :: bs)) (j + 1)) = bs := by
      rw [List.map_congr_left fun j hj =>
        lane_packBytes_succ b bs (Nat.lt_of_lt_of_le (List.mem_range.1 hj) h3)]
      exact ih (Nat.le_succ_of_le h3)
    rw [dataBytes, List.length_cons, List.range_succ_eq_map, List.map_cons, List.map_map, lane_packBytes_zero]
    exact congrArg (b :: ·) htail

/-- A run of one group of UPDSPAN on an armed channel folds the group's bytes, which DATA then holds. -/
theorem run_groupEvents {g : List Byte} (hg : g.length ≤ 4) (hk : s.chans[c.toNat]? = some k) (hb : k.bound = true)
    (ha : k.armed = true) :
    Host.Core.run core 2 { s with inputs := groupEvents c g ++ rest } = .next { s.setChannel c.toNat (k.absorb g) with
      data := packBytes g, inputs := rest, response := some .done } := by
  have hcount : (BitVec.ofNat 3 g.length).toNat = g.length := by
    rw [BitVec.toNat_ofNat, Nat.mod_eq_of_lt (by omega)]
  have hcount4 : (BitVec.ofNat 3 g.length).toNat ≤ 4 := hcount.trans_le hg
  have hupdw := exec_updw_armed (s := { s with data := packBytes g, response := some .done }) hcount4 hk hb ha
  rw [hcount, dataBytes_packBytes hg] at hupdw
  have hdata := step_data (s := { s with inputs := groupEvents c g ++ rest }) rfl
  have hcommand := step_issue (i := .updw c _) (rest := rest) (decide_eq_true hcount4) hupdw
  exact (run_succ hdata).trans (run_succ hcommand)

/-- A run of the groups of UPDSPAN on an armed channel folds the bytes of all of them. -/
theorem run_groups {gs : List (List Byte)} (hgs : ∀ g ∈ gs, g.length ≤ 4) (hk : s.chans[c.toNat]? = some k)
    (hb : k.bound = true) (ha : k.armed = true) (rest : List HostEvent) :
    ∃ t : State,
      Host.Core.run core (gs.flatMap (groupEvents c)).length { s with inputs := gs.flatMap (groupEvents c) ++ rest } =
        .next t ∧
      t.chans = s.chans.set c.toNat (k.absorb gs.flatten) ∧ t.result = s.result ∧ t.status = s.status ∧
      t.inputs = rest := by
  induction gs generalizing s k with
  | nil => exact ⟨_, rfl, (congrArg State.chans (setChannel_same hk)).symm, rfl, rfl, rfl⟩
  | cons g gs ih =>
    obtain ⟨hg, hgs⟩ := List.forall_mem_cons.1 hgs
    have hfirst := run_groupEvents (rest := gs.flatMap (groupEvents c) ++ rest) hg hk hb ha
    obtain ⟨t, hrun, hchans, hresult, hstatus, hinputs⟩ :=
      ih (s := { s.setChannel c.toNat (k.absorb g) with
        data := packBytes g, inputs := gs.flatMap (groupEvents c) ++ rest, response := some .done })
        (k := k.absorb g) hgs (setChannel_getElem?_self hk _) hb ha
    refine ⟨t, ?_, ?_, hresult, hstatus, hinputs⟩
    · have hlength : ((g :: gs).flatMap (groupEvents c)).length = 2 + (gs.flatMap (groupEvents c)).length := by
        rw [List.flatMap_cons, List.length_append]
        rfl
      rw [hlength, List.flatMap_cons, List.append_assoc]
      exact (run_add (M := core) hfirst).trans hrun
    · rw [hchans, List.flatten_cons, absorb_append]
      exact List.set_set ..

/-- Settles O53: the groups hold the bytes in order. -/
theorem updspanMacroFoldsItsBytes : Obligations.UpdspanMacroFoldsItsBytes := by
  intro s c k bs rest hk hb ha
  obtain ⟨t, hrun, hchans, hrest⟩ := run_groups (length_le_of_mem_groupsOfFour bs) hk hb ha rest
  rw [groupsOfFour_flatten] at hchans
  rw [updspan_eq]
  exact ⟨t, hrun, hchans, hrest⟩

end

end Sys2Proof.Machine
end
